-- ==== Sys2Proof/Word.lean ====
section
/-! DEFINITION. Word.lean: the two widths of value the data path knows (spec/00_scope.md R6, BYTEW and IDXW). -/

namespace Sys2Proof

/-- One stream byte, `BYTEW = 8` bits, unsigned, bit 0 least significant (R6, R8). -/
abbrev Byte := BitVec 8

/-- One palette index, `IDXW = 4` bits, unsigned (R6, R42). -/
abbrev Index := BitVec 4

end Sys2Proof
end

