-- ==== Sys2Proof/Config.lean ====
section
/-! DEFINITION. Config.lean: what an implementation of the block fixes, and the free values (spec/00_scope.md R6; spec/10_state.md R22). -/

namespace Sys2Proof.Config

/-- FREE VALUE, no body (log entry 1): by how much `LENW` exceeds 7. R6 leaves `LENW` open, an integer `>= 7`. -/
opaque lenWAboveSeven : Nat

/-- `LENW`, the width in bits of `HDRLEN` and `HREM` (R6): any integer from 7 up. -/
def lenW : Nat := lenWAboveSeven + 7

/-- `HDRLEN_RESET` (R6): the source's default header length. -/
def hdrLenReset : Nat := 118

/-- Does a header length fit the `LENW` wires of `cfg_wdata` (R68)? The first test is implied by the second, since
`LENW >= 7`; it stands there so that a small length can be evaluated although `LENW` is open (`fitsLenW_iff`). -/
def fitsLenW (v : Nat) : Bool := decide (v < 128) || decide (v < 2 ^ lenW)

/-- FREE VALUE, no body (log entry 2): what the wires of `HDRLEN` hold before the first `RESET` (R22). -/
opaque powerUpHdrLen : Nat

/-- FREE VALUE, no body (log entry 2): what the wires of `HREM` hold before the first `RESET` (R22). -/
opaque powerUpHRem : Nat

end Sys2Proof.Config
end

