-- ==== Sys2Proof/Syntax.lean ====
section
/-! DEFINITION. Syntax.lean: the operations of the block, one constructor per row of spec/opcode_table.json, and what a host can present to it. -/

namespace Sys2Proof

/-- The rows of spec/opcode_table.json (30_encoding.md R49): five events, the two forms of `XFER`, three pure functions
of one byte, and the sixteen rows of the substitution ROM. -/
inductive Instr where
  /-- `RESET` (70_reset_and_hazards.md R100). -/
  | reset
  /-- `CFG(v)` (42_stream_operations.md R68). A `v` of `2^LENW` or more is ill-formed: the port has no wires for it. -/
  | cfg (v : Nat)
  /-- `START` (R69). -/
  | start
  /-- `XFER(b)` (R70). -/
  | xfer (b : Byte)
  /-- `NOP` (R73). -/
  | nop
  /-- `XFER.PASS(b)` (R71): `XFER` in header phase. -/
  | xferPass (b : Byte)
  /-- `XFER.REMAP(b)` (R72): `XFER` in payload phase. -/
  | xferRemap (b : Byte)
  /-- `SPLIT(b)` (41_split_repack.md R59). -/
  | split (b : Byte)
  /-- `PACK(h, l)` (R60). -/
  | pack (h l : Index)
  /-- `REMAPBYTE(b)` (R62). -/
  | remapByte (b : Byte)
  /-- `SUBST.0`, row 0 of the ROM (40_substitution_lut.md R50, 30_encoding.md R44); the next fifteen likewise. -/
  | subst0
  | subst1
  | subst2
  | subst3
  | subst4
  | subst5
  | subst6
  | subst7
  | subst8
  | subst9
  | subst10
  | subst11
  | subst12
  | subst13
  | subst14
  | subst15
  deriving DecidableEq, Repr

/-- The five kinds of event a control word selects (30_encoding.md R46). -/
inductive Event where
  | reset
  | xfer
  | start
  | cfg
  | nop
  deriving DecidableEq, Repr

/-- The phase (10_state.md R14): the one mode that changes how the data wires are decoded (30_encoding.md R45). -/
inductive Phase where
  | header
  | payload
  deriving DecidableEq, Repr

/-- The input ports during one clock cycle, but for `clk` itself (43_port_binding.md R81). `cfgWdata` is the number on
the `LENW` wires. -/
structure Pins where
  rst : Bool := false
  cfgWe : Bool := false
  cfgWdata : Nat := 0
  start : Bool := false
  inValid : Bool := false
  inData : Byte := 0
  outReady : Bool := false
  deriving DecidableEq, Repr

/-- What the host presents to the block, or a bench to one of its parts, in one step. The wires a word stands on say
which format it has (30_encoding.md R39); the word itself does not. -/
inductive Drive where
  /-- One clock cycle of the top level's input ports (43_port_binding.md R86); its control word has format `C`. -/
  | cycle (p : Pins)
  /-- A byte transferred on `in_data`, seen at the second stage of R45: format `H` or `P`, as the phase says. -/
  | dataByte (b : Byte)
  /-- A byte on `byte_i` of `byte_splitter_repacker` (41_split_repack.md R66). -/
  | splitIn (b : Byte)
  /-- The two indices on `hi_i` and `lo_i`, written as the eight wires they are (R66; pattern `hhhhllll`). -/
  | repackIn (w : Byte)
  /-- A byte on `byte_i` with both lookups wired between split and repack (R62, R66). -/
  | lanesIn (b : Byte)
  /-- An index on `idx_i` of `palette_substitution_lut` (40_substitution_lut.md R57). -/
  | romIn (i : Index)
  deriving DecidableEq, Repr

/-- Why a presented word is no instruction. There is one reason only: no encoding is illegal (30_encoding.md R47). -/
inductive DecodeError where
  /-- `CFG` with an operand of `2^LENW` or more (42_stream_operations.md R68, 60_exceptions.md R90). -/
  | headerLengthTooLarge (v : Nat)
  deriving DecidableEq, Repr

end Sys2Proof
end

