-- ==== Sys2Proof/Machine/State.lean ====
section
/-! DEFINITION. Machine/State.lean: the state of the block, what stands around it, and the state after reset. -/

namespace Sys2Proof.Machine

/-- One frame (42_stream_operations.md R74): the header length `h` it began with, the bytes received so far and the
bytes delivered so far (20_memory.md R23 to R25). -/
structure Frame where
  /-- `h`: what its `START` or `RESET` loaded into `HREM` (R25). -/
  hdr : Nat
  /-- `In` (R24). -/
  inp : List Byte
  /-- `Out` (R24). -/
  out : List Byte
  deriving DecidableEq, Repr

/-- What a value-returning operation returns. -/
inductive Returned where
  /-- Nothing has been returned yet. -/
  | nothing
  /-- A byte: `XFER` and its forms (42_stream_operations.md R67), `PACK` (41_split_repack.md R60), `REMAPBYTE` (R62). -/
  | byte (b : Byte)
  /-- Two indices: `SPLIT` (R59). -/
  | indices (hi lo : Index)
  /-- One index: `SUBST` (40_substitution_lut.md R50). -/
  | index (i : Index)
  deriving DecidableEq, Repr

/-- The output ports during one clock cycle (43_port_binding.md R81, R83). -/
structure OutPins where
  inReady : Bool
  outValid : Bool
  outData : Byte
  deriving DecidableEq, Repr

/-- The reasons a step can fault: none. 60_exceptions.md R90: the set of exception causes is empty. -/
inductive Fault where
  deriving DecidableEq, Repr

/-- The reasons an instruction is refused. -/
inductive Refusal where
  /-- Raised by `exec` for a row without a meaning; safe. No arm raises it now. -/
  | notModelled (mnemonic : String)
  /-- Raised by `CFG` with an operand of `2^LENW` or more, which the port cannot carry (42_stream_operations.md R68,
  60_exceptions.md R90); safe. -/
  | headerLengthTooLarge (v : Nat)
  /-- Raised by `XFER.PASS` in payload phase and `XFER.REMAP` in header phase, which the block cannot select
  (30_encoding.md R45; preconditions of 42_stream_operations.md R71, R72); safe. No step raises it (log entry 8). -/
  | phaseMismatch (mnemonic : String)
  deriving DecidableEq, Repr

/-- The machine: the two registers, which are all the state the block has (10_state.md R11), the byte sequences it reaches
(R20), and the host's side of the ports. -/
structure State where
  /-- `HDRLEN` (R12), a number of `LENW` bits (log entry 10). -/
  hdrLen : Nat
  /-- `HREM` (R13), a number of `LENW` bits (log entry 10). -/
  hRem : Nat
  /-- The current frame; its offset `k` (R16) is the length of its `inp`. -/
  frame : Frame
  /-- THE MODEL'S OWN (log entry 4): the non-empty frames before it, oldest first, in the host's hands. -/
  past : List Frame
  /-- THE MODEL'S OWN (log entry 3): what the host presents in the coming steps, next first. -/
  pending : List Drive
  /-- THE MODEL'S OWN (log entry 5): the value returned last. -/
  result : Returned
  /-- THE MODEL'S OWN (log entry 5): the output ports in the last clock cycle run. -/
  pins : Option OutPins
  deriving DecidableEq, Repr

/-- The state right after `RESET` (10_state.md R21): both registers 118, offset 0, nothing presented yet. -/
def State.reset : State where
  hdrLen := Config.hdrLenReset
  hRem := Config.hdrLenReset
  frame := { hdr := Config.hdrLenReset, inp := [], out := [] }
  past := []
  pending := []
  result := .nothing
  pins := none

/-- What a step or an instruction answers. -/
abbrev Answer := Host.Outcome State Fault Refusal

end Sys2Proof.Machine
end

