-- ==== Sys2Proof/Machine/Flags.lean ====
section
/-! DEFINITION. Machine/Flags.lean: the block stores no flag; the one predicate derived from its state is the phase
(spec/10_state.md R14). -/

namespace Sys2Proof.Machine

/-- Header phase when `HREM != 0`, payload phase when `HREM == 0` (R14). -/
def State.phase (s : State) : Phase := if s.hRem ≠ 0 then .header else .payload

end Sys2Proof.Machine
end

