-- ==== Sys2Proof/Machine/Operands.lean ====
section
/-! DEFINITION. Machine/Operands.lean: the pure functions of the data path: cutting a byte into two indices, looking an
index up, and putting two indices back together (spec/30_encoding.md R43; spec/40_substitution_lut.md; spec/41_split_repack.md). -/

namespace Sys2Proof.Machine

/-- The high index, `(b >> 4) & 0xF` (R43, R59). -/
def highIndex (b : Byte) : Index := ((b >>> 4) &&& 0xF#8).setWidth 4

/-- The low index, `b & 0xF` (R43, R59). -/
def lowIndex (b : Byte) : Index := (b &&& 0xF#8).setWidth 4

/-- `PACK(h, l) = (h << 4) | l` (R43, R60). -/
def packIndices (h l : Index) : Byte := (h.setWidth 8 <<< 4) ||| l.setWidth 8

/-- `SUBST(i)` (R50): every test reads the index given, so it is one simultaneous lookup (R51). -/
def subst (i : Index) : Index :=
  if i = 6 then 1
  else if i = 1 then 4
  else if i = 5 then 3
  else if i = 3 then 6
  else if i = 4 then 5
  else i

/-- The ROM image entry by entry (R44), address 0 first. -/
def romImage : List Index := [0, 4, 2, 6, 5, 3, 1, 7, 8, 9, 10, 11, 12, 13, 14, 15]

/-- `LUT[i]` (R44); every address is populated (20_memory.md R30), so the default is never read. -/
def romRead (i : Index) : Index := romImage.getD i.toNat 0

/-- The ROM image as one constant, entry `i` in bits `[4i+3:4i]` (R44). -/
def romConstant : Nat := 0xFEDCBA9871356240

/-- `REMAPBYTE(b)` (R62): each index looked up once (R51), in its own lane (R63). -/
def remapByte (b : Byte) : Byte := packIndices (subst (highIndex b)) (subst (lowIndex b))

end Sys2Proof.Machine
end

