-- ==== Sys2Proof/Machine/Ops.lean ====
section
/-! DEFINITION. Machine/Ops.lean: the named operations on the registers and the byte sequences. There is no exception to
take and none to return from (spec/60_exceptions.md R90, R95); the nearest thing to an abnormal entry is `RESET`. -/

namespace Sys2Proof.Machine

/-- The state before the first `RESET` after power is applied (10_state.md R22): both registers hold unspecified values of
their width, no frame has begun, nothing has been presented. -/
def State.powerUp : State :=
  { State.reset with
    hdrLen := Config.powerUpHdrLen % 2 ^ Config.lenW
    hRem := Config.powerUpHRem % 2 ^ Config.lenW
    frame := { hdr := Config.powerUpHRem % 2 ^ Config.lenW, inp := [], out := [] } }

/-- `k`, the number of transfers since the last `START` or `RESET` (10_state.md R16). -/
def State.offset (s : State) : Nat := s.frame.inp.length

/-- `MemRead(k, 1)`: the byte at offset `k` of the current frame's input, nothing where no byte has been read (00_scope.md R9,
20_memory.md R24). -/
def memRead (s : State) (k : Nat) : Option Byte := s.frame.inp[k]?

/-- The byte at offset `k` of the current frame's output, nothing where no byte has been written (20_memory.md R24). -/
def outRead (s : State) (k : Nat) : Option Byte := s.frame.out[k]?

/-- The read half of a transfer: the byte presented becomes `In[k]` (20_memory.md R24). -/
def takeByte (b : Byte) (s : State) : State := { s with frame := { s.frame with inp := s.frame.inp ++ [b] } }

/-- `MemWrite(k, 1, v)`: appends `v` to the current frame's output (00_scope.md R9), where the host sees it. -/
def memWrite (v : Byte) (s : State) : State :=
  { s with frame := { s.frame with out := s.frame.out ++ [v] }, result := .byte v }

/-- `HREM <- HREM - 1`, done only when `HREM != 0` (41_split_repack.md R65). -/
def countHeaderByte (s : State) : State := { s with hRem := s.hRem - 1 }

/-- What `XFER.PASS` does (42_stream_operations.md R71). -/
def passByte (b : Byte) (s : State) : State := countHeaderByte (memWrite b (takeByte b s))

/-- What `XFER.REMAP` does (R72). -/
def sendRemapped (b : Byte) (s : State) : State := memWrite (remapByte b) (takeByte b s)

/-- The frames the host holds once the current one ends. A frame may be empty (R74); an empty one leaves nothing behind, so
two `START`s in a row equal one (R69). -/
def framesWhenClosed (s : State) : List Frame :=
  if s.frame.inp = [] ∧ s.frame.out = [] then s.past else s.past ++ [s.frame]

/-- Loading `h` into `HREM` ends the current frame and begins one with header length `h` and offset 0 (10_state.md R16, R18;
42_stream_operations.md R69, R74). -/
def beginFrame (h : Nat) (s : State) : State :=
  { s with hRem := h, frame := { hdr := h, inp := [], out := [] }, past := framesWhenClosed s }

/-- An operation that returns a value and does nothing else. -/
def returnValue (r : Returned) (s : State) : State := { s with result := r }

/-- Every byte delivered on the output stream so far, in order (42_stream_operations.md R79, 20_memory.md R32). -/
def State.delivered (s : State) : List Byte := s.past.flatMap Frame.out ++ s.frame.out

/-- Every byte taken from the input stream so far, in order (20_memory.md R24). -/
def State.consumed (s : State) : List Byte := s.past.flatMap Frame.inp ++ s.frame.inp

/-- The canonical form of the byte sequences: one output byte per input byte in every frame (20_memory.md R31), and no
empty frame among those that ended. -/
def Memory.wf (s : State) : Bool :=
  s.frame.out.length == s.frame.inp.length &&
    s.past.all fun f => f.out.length == f.inp.length && !f.inp.isEmpty

end Sys2Proof.Machine
end

