-- ==== Sys2Proof/Machine/SplitRepack.lean ====
section
/-! DEFINITION. Machine/SplitRepack.lean: the sub-block `byte_splitter_repacker` and the byte-level remap, run on their own
(spec/41_split_repack.md). They read and write no state of the block. -/

namespace Sys2Proof.Machine

/-- `SPLIT(b)` (R59). -/
def execSplit (b : Byte) (s : State) : Answer := .next (returnValue (.indices (highIndex b) (lowIndex b)) s)

/-- `PACK(h, l)` (R60). -/
def execPack (h l : Index) (s : State) : Answer := .next (returnValue (.byte (packIndices h l)) s)

/-- `REMAPBYTE(b)` (R62). -/
def execRemapByte (b : Byte) (s : State) : Answer := .next (returnValue (.byte (remapByte b)) s)

end Sys2Proof.Machine
end

