-- ==== Sys2Proof/Machine/Stream.lean ====
section
/-! DEFINITION. Machine/Stream.lean: the five events and the two forms of `XFER` (spec/42_stream_operations.md;
spec/70_reset_and_hazards.md R100). -/

namespace Sys2Proof.Machine

/-- `RESET` (R100): both registers become 118, at the start of a frame with that header length. -/
def execReset (s : State) : Answer :=
  .next (beginFrame Config.hdrLenReset { s with hdrLen := Config.hdrLenReset })

/-- `CFG(v)` (R68): every value the port can carry is stored unchanged; the current frame keeps its boundary. -/
def execCfg (v : Nat) (s : State) : Answer :=
  if Config.fitsLenW v then .next { s with hdrLen := v } else .refused (.headerLengthTooLarge v)

/-- `START` (R69). -/
def execStart (s : State) : Answer := .next (beginFrame s.hdrLen s)

/-- `XFER(b)` (R70): the phase, as it was before the operation, says which form it is. -/
def execXfer (b : Byte) (s : State) : Answer :=
  match s.phase with
  | .header => .next (passByte b s)
  | .payload => .next (sendRemapped b s)

/-- `NOP` (R73). -/
def execNop (s : State) : Answer := .next s

/-- `XFER.PASS(b)` (R71), whose precondition is `HREM != 0`. -/
def execXferPass (b : Byte) (s : State) : Answer :=
  match s.phase with
  | .header => .next (passByte b s)
  | .payload => .refused (.phaseMismatch "XFER.PASS")

/-- `XFER.REMAP(b)` (R72), whose precondition is `HREM == 0`. -/
def execXferRemap (b : Byte) (s : State) : Answer :=
  match s.phase with
  | .header => .refused (.phaseMismatch "XFER.REMAP")
  | .payload => .next (sendRemapped b s)

end Sys2Proof.Machine
end

