-- ==== Sys2Proof/Machine/Substitution.lean ====
section
/-! DEFINITION. Machine/Substitution.lean: the sixteen rows of `palette_substitution_lut`, each the lookup of one index
(spec/40_substitution_lut.md R50, R57; spec/30_encoding.md R44). They read and write no state of the block. -/

namespace Sys2Proof.Machine

/-- `SUBST.0` (R50). -/
def execSubst0 (s : State) : Answer := .next (returnValue (.index (subst 0)) s)

/-- `SUBST.1` (R50). -/
def execSubst1 (s : State) : Answer := .next (returnValue (.index (subst 1)) s)

/-- `SUBST.2` (R50). -/
def execSubst2 (s : State) : Answer := .next (returnValue (.index (subst 2)) s)

/-- `SUBST.3` (R50). -/
def execSubst3 (s : State) : Answer := .next (returnValue (.index (subst 3)) s)

/-- `SUBST.4` (R50). -/
def execSubst4 (s : State) : Answer := .next (returnValue (.index (subst 4)) s)

/-- `SUBST.5` (R50). -/
def execSubst5 (s : State) : Answer := .next (returnValue (.index (subst 5)) s)

/-- `SUBST.6` (R50). -/
def execSubst6 (s : State) : Answer := .next (returnValue (.index (subst 6)) s)

/-- `SUBST.7` (R50). -/
def execSubst7 (s : State) : Answer := .next (returnValue (.index (subst 7)) s)

/-- `SUBST.8` (R50). -/
def execSubst8 (s : State) : Answer := .next (returnValue (.index (subst 8)) s)

/-- `SUBST.9` (R50). -/
def execSubst9 (s : State) : Answer := .next (returnValue (.index (subst 9)) s)

/-- `SUBST.10` (R50). -/
def execSubst10 (s : State) : Answer := .next (returnValue (.index (subst 10)) s)

/-- `SUBST.11` (R50). -/
def execSubst11 (s : State) : Answer := .next (returnValue (.index (subst 11)) s)

/-- `SUBST.12` (R50). -/
def execSubst12 (s : State) : Answer := .next (returnValue (.index (subst 12)) s)

/-- `SUBST.13` (R50). -/
def execSubst13 (s : State) : Answer := .next (returnValue (.index (subst 13)) s)

/-- `SUBST.14` (R50). -/
def execSubst14 (s : State) : Answer := .next (returnValue (.index (subst 14)) s)

/-- `SUBST.15` (R50). -/
def execSubst15 (s : State) : Answer := .next (returnValue (.index (subst 15)) s)

end Sys2Proof.Machine
end

