-- ==== Sys2Proof/Machine/Dispatch.lean ====
section
/-! DEFINITION. Machine/Dispatch.lean: one arm per constructor of Instr. -/

namespace Sys2Proof.Machine

def exec (i : Instr) (s : State) : Host.Outcome State Fault Refusal :=
  match i with
  | .reset => Sys2Proof.Machine.execReset s
  | .cfg v => Sys2Proof.Machine.execCfg v s
  | .start => Sys2Proof.Machine.execStart s
  | .xfer b => Sys2Proof.Machine.execXfer b s
  | .nop => Sys2Proof.Machine.execNop s
  | .xferPass b => Sys2Proof.Machine.execXferPass b s
  | .xferRemap b => Sys2Proof.Machine.execXferRemap b s
  | .split b => Sys2Proof.Machine.execSplit b s
  | .pack h l => Sys2Proof.Machine.execPack h l s
  | .remapByte b => Sys2Proof.Machine.execRemapByte b s
  | .subst0 => Sys2Proof.Machine.execSubst0 s
  | .subst1 => Sys2Proof.Machine.execSubst1 s
  | .subst2 => Sys2Proof.Machine.execSubst2 s
  | .subst3 => Sys2Proof.Machine.execSubst3 s
  | .subst4 => Sys2Proof.Machine.execSubst4 s
  | .subst5 => Sys2Proof.Machine.execSubst5 s
  | .subst6 => Sys2Proof.Machine.execSubst6 s
  | .subst7 => Sys2Proof.Machine.execSubst7 s
  | .subst8 => Sys2Proof.Machine.execSubst8 s
  | .subst9 => Sys2Proof.Machine.execSubst9 s
  | .subst10 => Sys2Proof.Machine.execSubst10 s
  | .subst11 => Sys2Proof.Machine.execSubst11 s
  | .subst12 => Sys2Proof.Machine.execSubst12 s
  | .subst13 => Sys2Proof.Machine.execSubst13 s
  | .subst14 => Sys2Proof.Machine.execSubst14 s
  | .subst15 => Sys2Proof.Machine.execSubst15 s

end Sys2Proof.Machine
end

