-- ==== Sys2Proof/WellFormed.lean ====
section
/-! DEFINITION. WellFormed.lean: which instructions can be presented at all. -/

namespace Sys2Proof

/-- The only check an instruction needs: the operand of `CFG` fits the port (42_stream_operations.md R68). Bytes and
indices are legal whatever they hold (30_encoding.md R47). -/
def Instr.wellFormed : Instr → Bool
  | .cfg v => Config.fitsLenW v
  | _ => true

/-- The rows with a condition on the phase (spec/opcode_table.json, "condition"; 30_encoding.md R45): in the other phase
the block cannot select them. -/
def Instr.selectableIn : Phase → Instr → Bool
  | .payload, .xferPass _ => false
  | .header, .xferRemap _ => false
  | _, _ => true

end Sys2Proof
end

