-- ==== Sys2Proof/Decode.lean ====
section
/-! DEFINITION. Decode.lean: from presented words to instructions, and back (spec/30_encoding.md). -/

namespace Sys2Proof

/-- `fire = in_valid & out_ready & ~rst` (43_port_binding.md R84). -/
def Pins.fire (p : Pins) : Bool := p.inValid && p.outReady && !p.rst

/-- `C[3:0] = {rst, cfg_we, start, fire}` (30_encoding.md R46). -/
def Pins.controlWord (p : Pins) : BitVec 4 :=
  BitVec.ofBool p.rst ++ BitVec.ofBool p.cfgWe ++ BitVec.ofBool p.start ++ BitVec.ofBool p.fire

/-- One row of R46's table: the event is selected when `(C & mask) = match`. -/
structure ControlRow where
  event : Event
  pattern : BitVec 4
  mask : BitVec 4
  deriving DecidableEq, Repr

/-- R46's rows, in the order in which one cycle performs the events (43_port_binding.md R86). -/
def controlRows : List ControlRow :=
  [⟨.reset, 0x8#4, 0x8#4⟩, ⟨.xfer, 0x1#4, 0x9#4⟩, ⟨.start, 0x2#4, 0xA#4⟩, ⟨.cfg, 0x4#4, 0xC#4⟩, ⟨.nop, 0x0#4, 0xF#4⟩]

/-- The events a control word selects, in order (R46, R86). -/
def selectedEvents (c : BitVec 4) : List Event :=
  (controlRows.filter fun r => c &&& r.mask == r.pattern).map ControlRow.event

/-- An event with its operand read from the port R46 names. -/
def Event.toInstr (p : Pins) : Event → Instr
  | .reset => .reset
  | .xfer => .xfer p.inData
  | .start => .start
  | .cfg => .cfg p.cfgWdata
  | .nop => .nop

/-- The instructions of one clock cycle, in order (R46, R86). -/
def Pins.instrs (p : Pins) : List Instr := (selectedEvents p.controlWord).map (Event.toInstr p)

/-- R44's ROM rows as spec/opcode_table.json lists them: each matches one index exactly (mask `0xF`). -/
def romRows : List (Index × Instr) :=
  [(0, .subst0), (1, .subst1), (2, .subst2), (3, .subst3), (4, .subst4), (5, .subst5), (6, .subst6), (7, .subst7)] ++
  [(8, .subst8), (9, .subst9), (10, .subst10), (11, .subst11), (12, .subst12), (13, .subst13), (14, .subst14),
   (15, .subst15)]

/-- The rows an index on `idx_i` selects: exactly one, since every address is populated (20_memory.md R30; `decodeIndex_one`). -/
def decodeIndex (i : Index) : List Instr := (romRows.filter fun r => r.1 == i).map Prod.snd

/-- A cycle is decoded whole: an operand of `CFG` that does not fit rejects it (42_stream_operations.md R68; log entry 11). When the
cycle selects no `CFG`, `cfg_wdata` is ignored (43_port_binding.md R81). -/
def decodeCycle (p : Pins) : Except DecodeError (List Instr) :=
  if p.instrs.all Instr.wellFormed then .ok p.instrs else .error (.headerLengthTooLarge p.cfgWdata)

/-- The decoder: what is presented, and the phase (30_encoding.md R45, R49), give the instructions performed, in order. -/
def decode (ph : Phase) : Drive → Except DecodeError (List Instr)
  | .cycle p => decodeCycle p
  | .dataByte b =>
    match ph with
    | .header => .ok [.xferPass b]
    | .payload => .ok [.xferRemap b]
  | .splitIn b => .ok [.split b]
  | .repackIn w => .ok [.pack (w.extractLsb' 4 4) (w.extractLsb' 0 4)]
  | .lanesIn b => .ok [.remapByte b]
  | .romIn i => .ok (decodeIndex i)

/-- The encoder: how a host or a bench presents one instruction alone. An event is the cycle that performs only it
(95_test_vectors.md section 3, "Encoding"). -/
def encode : Instr → Drive
  | .reset => .cycle { rst := true }
  | .cfg v => .cycle { cfgWe := true, cfgWdata := v }
  | .start => .cycle { start := true }
  | .xfer b => .cycle { inValid := true, inData := b, outReady := true }
  | .nop => .cycle {}
  | .xferPass b => .dataByte b
  | .xferRemap b => .dataByte b
  | .split b => .splitIn b
  | .pack h l => .repackIn (h ++ l)
  | .remapByte b => .lanesIn b
  | .subst0 => .romIn 0
  | .subst1 => .romIn 1
  | .subst2 => .romIn 2
  | .subst3 => .romIn 3
  | .subst4 => .romIn 4
  | .subst5 => .romIn 5
  | .subst6 => .romIn 6
  | .subst7 => .romIn 7
  | .subst8 => .romIn 8
  | .subst9 => .romIn 9
  | .subst10 => .romIn 10
  | .subst11 => .romIn 11
  | .subst12 => .romIn 12
  | .subst13 => .romIn 13
  | .subst14 => .romIn 14
  | .subst15 => .romIn 15

/-- The cycle whose control word is `c`, the operand ports all zero. -/
def pinsOfControlWord (c : BitVec 4) : Pins :=
  { rst := c.getLsbD 3, cfgWe := c.getLsbD 2, start := c.getLsbD 1, inValid := c.getLsbD 0, outReady := c.getLsbD 0 }

/-- Where a bare word of the opcode table is presented (log entry 7): a number below 16 as a control word on the strobes,
another number of at most 8 bits as a data byte on `in_data`; no format is wider (30_encoding.md R39). -/
def driveOfTableWord (nbits w : Nat) : Option Drive :=
  if nbits ≤ 8 ∧ w < 256 then
    if w < 16 then some (.cycle (pinsOfControlWord (BitVec.ofNat 4 w))) else some (.dataByte (BitVec.ofNat 8 w))
  else none

/-- The instruction the decoder reads from a bare word of the opcode table, in the phase after reset. A control word that
selects several events is no one instruction (log entry 7). -/
def decodeTableWord (nbits w : Nat) : Option Instr :=
  match driveOfTableWord nbits w with
  | none => none
  | some d =>
    match decode .header d with
    | .ok [i] => some i
    | _ => none

end Sys2Proof
end

