-- ==== Sys2Proof/Machine/Ports.lean ====
section
/-! DEFINITION. Machine/Ports.lean: the combinational outputs of a clock cycle and the next-state function of the registers
(spec/43_port_binding.md R83, R85). -/

namespace Sys2Proof.Machine

/-- The output ports during a cycle, from the state and the inputs of that cycle (R83). -/
def outputsOf (p : Pins) (s : State) : OutPins where
  inReady := p.outReady && !p.rst
  outValid := p.inValid && !p.rst
  outData := match s.phase with
    | .header => p.inData
    | .payload => remapByte p.inData

/-- What a presentation shows on the output ports while it stands there; only a clock cycle drives the top level's ports. -/
def showOutputs (d : Drive) (s : State) : State :=
  match d with
  | .cycle p => { s with pins := some (outputsOf p s) }
  | _ => s

/-- `HDRLEN'` of R85. -/
def nextHdrLen (p : Pins) (s : State) : Nat :=
  if p.rst then Config.hdrLenReset else if p.cfgWe then p.cfgWdata else s.hdrLen

/-- `HREM'` of R85. -/
def nextHRem (p : Pins) (s : State) : Nat :=
  if p.rst then Config.hdrLenReset
  else if p.start then s.hdrLen
  else if p.fire ∧ s.hRem ≠ 0 then s.hRem - 1
  else s.hRem

end Sys2Proof.Machine
end

