-- ==== Sys2Proof/Machine/Run.lean ====
section
/-! DEFINITION. Machine/Run.lean: a sequence of operations, one after another, and what one presentation makes the block do
(spec/00_scope.md R7; spec/43_port_binding.md R86). -/

namespace Sys2Proof.Machine

/-- Operations one at a time, each complete before the next begins (20_memory.md R32). -/
def runEvents : List Instr → State → Answer
  | [], s => .next s
  | i :: is, s =>
    match exec i s with
    | .next t => runEvents is t
    | .fault r => .fault r
    | .refused r => .refused r

/-- The refusal that names a presentation the decoder rejects. -/
def refusalOf : DecodeError → Refusal
  | .headerLengthTooLarge v => .headerLengthTooLarge v

/-- One presentation: the outputs of the cycle are those of the state before its edge (R83), then the decoded operations are
performed in order (R86). -/
def runDrive (d : Drive) (s : State) : Answer :=
  match decode s.phase d with
  | .ok is => runEvents is (showOutputs d s)
  | .error e => .refused (refusalOf e)

/-- One step: the next presentation, taken off the host's queue. When the host presents nothing the block idles in `NOP`
(60_exceptions.md R99). -/
def stepHost (s : State) : Answer :=
  match s.pending with
  | [] => exec .nop s
  | d :: rest => runDrive d { s with pending := rest }

/-- A bare word of the opcode table as the next presentation (log entry 7). -/
def presentTableWord (s : State) (nbits w : Nat) : State :=
  match driveOfTableWord nbits w with
  | some d => { s with pending := d :: s.pending }
  | none => s

end Sys2Proof.Machine
end

