-- ==== Sys2Proof/Machine/Step.lean ====
section
/-! DEFINITION. Machine/Step.lean: the step of the machine, and how one instruction is placed before it. -/

namespace Sys2Proof.Machine

/-- One step of the block: one clock cycle, or one word on a part's ports (log entry 3). -/
def step (s : State) : Host.Outcome State Fault Refusal := stepHost s

/-- The state in which the next step runs the instruction a bare word of the opcode table stands for (log entry 7). -/
def State.withFetchWord (s : State) (nbits w : Nat) : State := presentTableWord s nbits w

end Sys2Proof.Machine
end

