-- ==== Sys2Proof/Machine/Frames.lean ====
section
/-! DEFINITION. Machine/Frames.lean: the function `remap` a frame computes, and the pseudo-operations that spell a frame
(spec/42_stream_operations.md R75; spec/30_encoding.md R48). -/

namespace Sys2Proof.Machine

/-- `remap(s, h)` (R75): the effective header as it is, every later byte through `REMAPBYTE`. `take` and `drop` clip at the
length as R8's slices do, which is `he = min(h, n)`. -/
def remap (s : List Byte) (h : Nat) : List Byte := s.take h ++ (s.drop h).map remapByte

/-- `XFERS [b0, ..., bm]` (R48). -/
def xfers (bs : List Byte) : List Instr := bs.map Instr.xfer

/-- `FRAME h, [b0, ..., bm]` (R48). -/
def frameTrace (h : Nat) (bs : List Byte) : List Instr := .cfg h :: .start :: xfers bs

/-- `FRAMEDEF [b0, ..., bm]` (R48). -/
def frameDefTrace (bs : List Byte) : List Instr := .reset :: xfers bs

/-- The byte an event transfers, if it is an `XFER` (R74: a frame's input is the sequence of operands of its `XFER`s). -/
def xferOperand : Instr → Option Byte
  | .xfer b => some b
  | _ => none

/-- The header length an event writes, if it is a `CFG`. -/
def cfgOperand : Instr → Option Nat
  | .cfg v => some v
  | _ => none

/-- The events that may stand inside a frame (R74): transfers, and the `CFG`s and `NOP`s interleaved with them. -/
def mayStandInFrame : Instr → Bool
  | .xfer _ => true
  | .nop => true
  | .cfg v => Config.fitsLenW v
  | _ => false

/-- `f` applied `n` times: the powers of R54 and R64. -/
def applyTimes {α : Type} (f : α → α) : Nat → α → α
  | 0, a => a
  | n + 1, a => applyTimes f n (f a)

end Sys2Proof.Machine
end

