-- ==== Sys2Proof/Safety.lean ====
section
/-! DEFINITION. Safety.lean: the terms in which claims speak of a good state and a good run. -/

namespace Sys2Proof

open Machine

/-- A frame is right so far: its header length fits the registers, and what came out is `remap` of what went in
(42_stream_operations.md R76, 20_memory.md R25). -/
structure FrameRight (f : Frame) : Prop where
  hdr_fits : f.hdr < 2 ^ Config.lenW
  out_eq : f.out = remap f.inp f.hdr

/-- The invariant of the block: the registers keep their width (10_state.md R12, R13), `HREM = h -. k` (R16), every frame,
ended or not, is right so far, and no empty frame is kept. -/
structure Inv (s : State) : Prop where
  hdrLen_fits : s.hdrLen < 2 ^ Config.lenW
  hRem_fits : s.hRem < 2 ^ Config.lenW
  hRem_eq : s.hRem = s.frame.hdr - s.offset
  frame_right : FrameRight s.frame
  past_right : ∀ f ∈ s.past, FrameRight f ∧ f.inp ≠ []

/-- The function the non-conforming sequential variant computes on one index (40_substitution_lut.md R58): each replacement
reads what the one before it wrote. The block does NOT compute it; claims compare with it. -/
def sequentialSubst (i : Index) : Index :=
  let a := if i = 6 then 1 else i
  let b := if a = 1 then 4 else a
  let c := if b = 5 then 3 else b
  let d := if c = 3 then 6 else c
  if d = 4 then 5 else d

/-- The same variant on a payload byte (R58). -/
def sequentialRemapByte (b : Byte) : Byte :=
  packIndices (sequentialSubst (highIndex b)) (sequentialSubst (lowIndex b))

end Sys2Proof
end

