-- ==== Sys2Proof/Certificates/Slice0/Obligations.lean ====
section
/-! DEFINITION. Certificates/Slice0/Obligations.lean: the statements about the machine, for the provers. -/

open Sys2Proof Sys2Proof.Machine

/-! ### Encoding and decoding -/

/-- Presented alone, every instruction that can be presented is what the decoder reads, whatever its operands, in every
phase that can select it (30_encoding.md sections 1 to 4). The way a part's word is presented is the model's (log entry 6). -/
def Obligations.DecodeOfEncode : Prop :=
  ∀ (i : Instr) (ph : Phase), i.wellFormed = true → i.selectableIn ph = true → decode ph (encode i) = .ok [i]

/-- Words written out from the spec's tables: control words of 95_test_vectors.md section 2.6, and one word of every other
format (30_encoding.md R40 to R44), read as the operations they stand for. -/
def Obligations.SpecWordsDecode : Prop :=
  decode .header (.cycle { rst := true, inValid := true, inData := 0x61, outReady := true }) = .ok [.reset] ∧
  decode .header (.cycle { cfgWe := true, cfgWdata := 1, outReady := true }) = .ok [.cfg 1] ∧
  decode .header (.cycle { start := true, outReady := true }) = .ok [.start] ∧
  decode .header (.cycle { inValid := true, inData := 0x61, outReady := true }) = .ok [.xfer 0x61] ∧
  decode .payload (.cycle { inValid := true, inData := 0x61 }) = .ok [.nop] ∧
  decode .payload (.cycle { cfgWe := true, start := true, inValid := true, inData := 0x35, outReady := true }) =
    .ok [.xfer 0x35, .start, .cfg 0] ∧
  decode .header (.dataByte 0x61) = .ok [.xferPass 0x61] ∧
  decode .payload (.dataByte 0x61) = .ok [.xferRemap 0x61] ∧
  decode .header (.splitIn 0x61) = .ok [.split 0x61] ∧
  decode .header (.repackIn 0x14) = .ok [.pack 1 4] ∧
  decode .header (.lanesIn 0x61) = .ok [.remapByte 0x61] ∧
  decode .header (.romIn 6) = .ok [.subst6]

/-- R46: the control word's bits, the match and mask of each event, and the order in which a cycle performs them. The premise
says that the port can carry the operand (R68). -/
def Obligations.ControlWordSelectsEvents : Prop :=
  ∀ (p : Pins) (ph : Phase), (p.rst = false → p.cfgWe = true → p.cfgWdata < 2 ^ Config.lenW) →
    (p.controlWord.getLsbD 3 = p.rst ∧ p.controlWord.getLsbD 2 = p.cfgWe ∧ p.controlWord.getLsbD 1 = p.start ∧
      p.controlWord.getLsbD 0 = (p.inValid && p.outReady && !p.rst)) ∧
    (p.controlWord &&& 0x8 = 0x8 ↔ p.rst = true) ∧
    (p.controlWord &&& 0xC = 0x4 ↔ p.rst = false ∧ p.cfgWe = true) ∧
    (p.controlWord &&& 0xA = 0x2 ↔ p.rst = false ∧ p.start = true) ∧
    (p.controlWord &&& 0x9 = 0x1 ↔ p.rst = false ∧ p.fire = true) ∧
    (p.controlWord &&& 0xF = 0x0 ↔ p.controlWord = 0) ∧
    decode ph (.cycle p) = .ok (
      if p.controlWord &&& 0x8 = 0x8 then [.reset]
      else if p.controlWord = 0 then [.nop]
      else (if p.controlWord &&& 0x9 = 0x1 then [.xfer p.inData] else []) ++
        (if p.controlWord &&& 0xA = 0x2 then [.start] else []) ++
        (if p.controlWord &&& 0xC = 0x4 then [.cfg p.cfgWdata] else []))

/-- Whatever is presented, in whatever format, selects at least one operation, and performing it completes; the premise says
only that a clock cycle's `cfg_wdata` has `LENW` wires (30_encoding.md section 5). -/
def Obligations.EveryWordIsLegal : Prop :=
  ∀ (s : State) (d : Drive), (∀ p, d = .cycle p → p.cfgWdata < 2 ^ Config.lenW) →
    ∃ is, decode s.phase d = .ok is ∧ is ≠ [] ∧ ∃ t, runEvents is s = .next t

/-! ### The step -/

/-- A step takes the next presentation off the host's queue, shows the outputs of its cycle, and performs what it decodes to:
several operations one after another, a single one as `exec` of it. -/
def Obligations.StepRunsDecoded : Prop :=
  ∀ (s : State) (d : Drive) (rest : List Drive), s.pending = d :: rest →
    (∀ is, decode s.phase d = .ok is → step s = runEvents is (showOutputs d { s with pending := rest })) ∧
    (∀ i, decode s.phase d = .ok [i] → step s = exec i (showOutputs d { s with pending := rest }))

/-- A bare word of the opcode table that decodes to one instruction is what the next step runs (the placing of a bare word is
the model's choice, log entry 7). -/
def Obligations.PlacedWordRuns : Prop :=
  ∀ (s : State) (nbits w : Nat) (d : Drive) (i : Instr), driveOfTableWord nbits w = some d →
    decode s.phase d = .ok [i] → step (s.withFetchWord nbits w) = exec i (showOutputs d s)

/-- Events presented one a cycle, each as `encode` presents it, are performed in order, one a step, exactly as `runEvents`
performs them; only the queue and the record of the output ports differ. -/
def Obligations.PresentedTraceIsPerformed : Prop :=
  ∀ (is : List Instr) (rest : List Drive) (s t : State), (∀ i ∈ is, i = .reset ∨ i = .start ∨ mayStandInFrame i = true) →
    runEvents is s = .next t →
    ∃ shown, Host.Core.run Sys2Proof.core is.length { s with pending := is.map encode ++ rest } =
      .next { t with pending := rest, pins := shown }

/-! ### The events -/

/-- R21: the reset values. -/
def Obligations.ResetValues : Prop :=
  State.reset.hdrLen = 118 ∧ State.reset.hRem = 118 ∧ State.reset.phase = .header ∧ State.reset.offset = 0

/-- R100: `RESET` from every state, mid-frame or before any other operation; two in a row equal one; it is as if `CFG(118)` and
`START` had been issued; a byte offered in the reset cycle is not transferred. -/
def Obligations.ResetLoadsDefault : Prop :=
  ∀ s : State,
    (∃ t, exec .reset s = .next t ∧ t.hdrLen = 118 ∧ t.hRem = 118 ∧ t.offset = 0 ∧
      t.frame = { hdr := 118, inp := [], out := [] }) ∧
    runEvents [.reset, .reset] s = runEvents [.reset] s ∧
    runEvents [.reset, .cfg 118, .start] s = runEvents [.reset] s ∧
    ∀ (p : Pins) (rest : List Drive), s.pending = .cycle p :: rest → p.rst = true →
      ∃ t, step s = .next t ∧ t.hdrLen = 118 ∧ t.hRem = 118 ∧ t.offset = 0 ∧
        t.consumed = s.consumed ∧ t.delivered = s.delivered

/-- R68: `CFG(v)`. -/
def Obligations.CfgSetsHeaderLength : Prop :=
  ∀ (s : State) (v : Nat),
    (v < 2 ^ Config.lenW → exec (.cfg v) s = .next { s with hdrLen := v }) ∧
    (2 ^ Config.lenW ≤ v → exec (.cfg v) s = .refused (.headerLengthTooLarge v)) ∧
    (v < 2 ^ Config.lenW → s.hdrLen = v → exec (.cfg v) s = .next s) ∧
    ∀ w, v < 2 ^ Config.lenW → w < 2 ^ Config.lenW → runEvents [.cfg v, .cfg w] s = runEvents [.cfg w] s

/-- R69: `START`, mid-frame or not; two in a row equal one. -/
def Obligations.StartBeginsFrame : Prop :=
  ∀ s : State, ∃ t, exec .start s = .next t ∧ t.hRem = s.hdrLen ∧ t.hdrLen = s.hdrLen ∧
    t.frame = { hdr := s.hdrLen, inp := [], out := [] } ∧ t.offset = 0 ∧ (t.phase = .header ↔ s.hdrLen ≠ 0) ∧ (t.phase = .payload ↔ s.hdrLen = 0) ∧
    runEvents [.start, .start] s = .next t

/-- R70: `XFER(b)` is `XFER.PASS` or `XFER.REMAP` by `HREM` as it was, and only `START` or `RESET` leads back from the payload
phase. -/
def Obligations.XferIsPassOrRemap : Prop :=
  ∀ s : State,
    (∀ b, exec (.xfer b) s = .next (
      if s.hRem ≠ 0 then
        { s with hRem := s.hRem - 1, frame := { s.frame with inp := s.frame.inp ++ [b], out := s.frame.out ++ [b] },
                 result := .byte b }
      else
        { s with frame := { s.frame with inp := s.frame.inp ++ [b], out := s.frame.out ++ [remapByte b] },
                 result := .byte (remapByte b) })) ∧
    (∀ b, s.hRem ≠ 0 → exec (.xfer b) s = exec (.xferPass b) s) ∧
    (∀ b, s.hRem = 0 → exec (.xfer b) s = exec (.xferRemap b) s) ∧
    ∀ i t, exec i s = .next t → s.hRem = 0 → t.hRem ≠ 0 → i = .start ∨ i = .reset

/-- R71: `XFER.PASS(b)` copies the byte and counts it; with `HREM = 1` the next byte is the first of the payload. -/
def Obligations.PassCopiesByte : Prop :=
  ∀ (s : State) (b : Byte), s.hRem ≠ 0 →
    ∃ t, exec (.xferPass b) s = .next t ∧
      t = { s with hRem := s.hRem - 1, result := .byte b,
                   frame := { s.frame with inp := s.frame.inp ++ [b], out := s.frame.out ++ [b] } } ∧
      (s.hRem = 1 → t.hRem = 0 ∧ t.phase = .payload)

/-- R72: `XFER.REMAP(b)` outputs `REMAPBYTE(b)`; `HREM` stays 0, for any number of further bytes. -/
def Obligations.RemapTranslatesByte : Prop :=
  ∀ (s : State) (b : Byte), s.hRem = 0 →
    ∃ t, exec (.xferRemap b) s = .next t ∧
      t = { s with result := .byte (remapByte b),
                   frame := { s.frame with inp := s.frame.inp ++ [b], out := s.frame.out ++ [remapByte b] } } ∧
      t.hRem = 0 ∧ t.phase = .payload ∧
      ∀ bs, ∃ u, runEvents (xfers bs) t = .next u ∧ u.hRem = 0 ∧ u.phase = .payload ∧
        u.frame.out = t.frame.out ++ bs.map remapByte

/-- In the phase that cannot select it a form of `XFER` is refused by name: the model's choice (log entry 8). -/
def Obligations.FormsRefuseOtherPhase : Prop :=
  ∀ (s : State) (b : Byte),
    (s.hRem = 0 → exec (.xferPass b) s = .refused (.phaseMismatch "XFER.PASS")) ∧
    (s.hRem ≠ 0 → exec (.xferRemap b) s = .refused (.phaseMismatch "XFER.REMAP"))

/-- R73: `NOP` changes nothing and can be deleted from any trace; the block never changes state on its own and never produces
a byte without consuming one. -/
def Obligations.NopIsInert : Prop :=
  ∀ s : State,
    exec .nop s = .next s ∧
    (∀ xs ys, runEvents (xs ++ .nop :: ys) s = runEvents (xs ++ ys) s) ∧
    (s.pending = [] → step s = .next s) ∧
    ∀ t, step s = .next t → ∃ taken given : List Byte,
      t.consumed = s.consumed ++ taken ∧ t.delivered = s.delivered ++ given ∧ given.length = taken.length

/-! ### The pure functions, and the rows of the ROM -/

/-- R59: `SPLIT(b)`. The two results are bits 7:4 and bits 3:0, which are `(b >> 4) & 0xF` and `b & 0xF`. -/
def Obligations.SplitReturnsIndices : Prop :=
  ∀ (s : State) (b : Byte),
    exec (.split b) s = .next { s with result := .indices (b.extractLsb' 4 4) (b.extractLsb' 0 4) } ∧
    (b.extractLsb' 4 4).toNat = (b.toNat >>> 4) &&& 0xF ∧ (b.extractLsb' 0 4).toNat = b.toNat &&& 0xF

/-- R60: `PACK(h, l)`. The result is `h` in bits 7:4 and `l` in bits 3:0, which is `(h << 4) | l`. -/
def Obligations.PackReturnsByte : Prop :=
  ∀ (s : State) (h l : Index),
    exec (.pack h l) s = .next { s with result := .byte (h ++ l) } ∧ (h ++ l).toNat = (h.toNat <<< 4) ||| l.toNat

/-- R62: `REMAPBYTE(b)`: split, two lookups, repack. -/
def Obligations.RemapByteReturns : Prop :=
  ∀ (s : State) (b : Byte),
    exec (.remapByte b) s = .next { s with result := .byte (subst (b.extractLsb' 4 4) ++ subst (b.extractLsb' 0 4)) } ∧
    remapByte b = subst (b.extractLsb' 4 4) ++ subst (b.extractLsb' 0 4)

/-- R50: `SUBST(i)` for all sixteen inputs, as a function and as the sixteen rows. -/
def Obligations.SubstRowsReturnEntries : Prop :=
  (List.range 16).map (fun n => (subst (BitVec.ofNat 4 n)).toNat) = [0, 4, 2, 6, 5, 3, 1, 7, 8, 9, 10, 11, 12, 13, 14, 15] ∧
  ∀ s : State,
    exec .subst0 s = .next { s with result := .index 0 } ∧
    exec .subst1 s = .next { s with result := .index 4 } ∧
    exec .subst2 s = .next { s with result := .index 2 } ∧
    exec .subst3 s = .next { s with result := .index 6 } ∧
    exec .subst4 s = .next { s with result := .index 5 } ∧
    exec .subst5 s = .next { s with result := .index 3 } ∧
    exec .subst6 s = .next { s with result := .index 1 } ∧
    exec .subst7 s = .next { s with result := .index 7 } ∧
    exec .subst8 s = .next { s with result := .index 8 } ∧
    exec .subst9 s = .next { s with result := .index 9 } ∧
    exec .subst10 s = .next { s with result := .index 10 } ∧
    exec .subst11 s = .next { s with result := .index 11 } ∧
    exec .subst12 s = .next { s with result := .index 12 } ∧
    exec .subst13 s = .next { s with result := .index 13 } ∧
    exec .subst14 s = .next { s with result := .index 14 } ∧
    exec .subst15 s = .next { s with result := .index 15 }

/-- R44: the ROM image, entry by entry and as one constant. -/
def Obligations.RomImageIsSubst : Prop :=
  romImage = [0, 4, 2, 6, 5, 3, 1, 7, 8, 9, 10, 11, 12, 13, 14, 15] ∧
  ∀ i : Index, romRead i = subst i ∧ (romRead i).toNat = (0xFEDCBA9871356240 >>> (4 * i.toNat)) &&& 0xF

/-- R53: a permutation with one 5-cycle (6 to 1 to 4 to 5 to 3 to 6) and eleven fixed points. -/
def Obligations.SubstIsOneFiveCycle : Prop :=
  Function.Bijective subst ∧
  subst 6 = 1 ∧ subst 1 = 4 ∧ subst 4 = 5 ∧ subst 5 = 3 ∧ subst 3 = 6 ∧
  ∀ i : Index, subst i ≠ i ↔ i ∈ [1, 3, 4, 5, 6]

/-- R54: the powers of `SUBST` by the table, and its order, 5. -/
def Obligations.SubstPowers : Prop :=
  (List.range 7).map (fun n => (applyTimes subst 1 (BitVec.ofNat 4 n)).toNat) = [0, 4, 2, 6, 5, 3, 1] ∧
  (List.range 7).map (fun n => (applyTimes subst 2 (BitVec.ofNat 4 n)).toNat) = [0, 5, 2, 1, 3, 6, 4] ∧
  (List.range 7).map (fun n => (applyTimes subst 3 (BitVec.ofNat 4 n)).toNat) = [0, 3, 2, 4, 6, 1, 5] ∧
  (List.range 7).map (fun n => (applyTimes subst 4 (BitVec.ofNat 4 n)).toNat) = [0, 6, 2, 5, 1, 4, 3] ∧
  (∀ (i : Index) (n : Nat), 7 ≤ i.toNat → applyTimes subst n i = i) ∧
  (∀ i : Index, applyTimes subst 5 i = i) ∧
  ∀ n, 0 < n → n < 5 → ∃ i : Index, applyTimes subst n i ≠ i

/-- R55: the inverse permutation is the fourth power: 1 to 6, 4 to 1, 3 to 5, 6 to 3, 5 to 4, identity elsewhere. -/
def Obligations.SubstInverseIsFourthPower : Prop :=
  (∀ i : Index, subst (applyTimes subst 4 i) = i ∧ applyTimes subst 4 (subst i) = i) ∧
  ∀ i : Index, applyTimes subst 4 i =
    if i = 1 then 6 else if i = 4 then 1 else if i = 3 then 5 else if i = 6 then 3 else if i = 5 then 4 else i

/-- R56: neither idempotent nor self-inverse on the five listed indices. -/
def Obligations.SubstNotIdempotentNotSelfInverse : Prop :=
  (∀ i ∈ ([1, 3, 4, 5, 6] : List Index), subst (subst i) ≠ subst i ∧ subst (subst i) ≠ i) ∧
  subst (subst 6) = 4 ∧ subst 6 = 1

/-- R58: the sequential variant's table; it is no permutation, it differs at 1, 5 and 6, and `0x61` exposes it. -/
def Obligations.SequentialVariantDiffers : Prop :=
  (List.range 16).map (fun n => (sequentialSubst (BitVec.ofNat 4 n)).toNat) =
    [0, 5, 2, 6, 5, 6, 5, 7, 8, 9, 10, 11, 12, 13, 14, 15] ∧
  (∀ i : Index, sequentialSubst i ≠ subst i ↔ i ∈ [1, 5, 6]) ∧
  ¬ Function.Injective sequentialSubst ∧
  remapByte 0x61 = 0x14 ∧ sequentialRemapByte 0x61 = 0x55

/-- R61: `SPLIT` and `PACK` undo each other; a byte of two fixed indices leaves unchanged. -/
def Obligations.SplitAndPackAreInverse : Prop :=
  (∀ b : Byte, packIndices (highIndex b) (lowIndex b) = b) ∧
  (∀ h l : Index, highIndex (packIndices h l) = h ∧ lowIndex (packIndices h l) = l) ∧
  ∀ b : Byte, subst (highIndex b) = highIndex b → subst (lowIndex b) = lowIndex b → remapByte b = b

/-- R63: each lane of the result depends on the same lane of the input alone, by the same function. -/
def Obligations.LanesAreIndependent : Prop :=
  (∀ b : Byte, highIndex (remapByte b) = subst (highIndex b) ∧ lowIndex (remapByte b) = subst (lowIndex b)) ∧
  (∀ b c : Byte, highIndex b = highIndex c → highIndex (remapByte b) = highIndex (remapByte c)) ∧
  ∀ b c : Byte, lowIndex b = lowIndex c → lowIndex (remapByte b) = lowIndex (remapByte c)

/-- R64: `REMAPBYTE` permutes the 256 bytes with the stated inverse, fixes 121 of them, has order 5, and is neither idempotent
nor self-inverse on the others. -/
def Obligations.RemapBytePermutation : Prop :=
  (Function.Bijective remapByte ∧ ∀ b : Byte,
    remapByte (packIndices (applyTimes subst 4 (highIndex b)) (applyTimes subst 4 (lowIndex b))) = b) ∧
  ((List.range 256).filter fun n => remapByte (BitVec.ofNat 8 n) == BitVec.ofNat 8 n).length = 121 ∧
  (∀ b : Byte, remapByte b = b ↔ subst (highIndex b) = highIndex b ∧ subst (lowIndex b) = lowIndex b) ∧
  (∀ b : Byte, applyTimes remapByte 5 b = b) ∧
  (∀ n, 0 < n → n < 5 → ∃ b : Byte, applyTimes remapByte n b ≠ b) ∧
  (∀ b : Byte, remapByte b ≠ b → remapByte (remapByte b) ≠ remapByte b ∧ remapByte (remapByte b) ≠ b) ∧
  remapByte (remapByte 0x61) = 0x45

/-! ### Frames of the instructions: what they leave alone -/

/-- `SPLIT`, `PACK`, `REMAPBYTE` and the ROM rows complete in every state, and change nothing but the record of what was
returned: no register, no byte of either sequence (41_split_repack.md sections 1 to 3, 40_substitution_lut.md section 1). -/
def Obligations.PureFunctionsLeaveState : Prop :=
  ∀ (i : Instr) (s : State), ((∃ b, i = .split b) ∨ (∃ h l, i = .pack h l) ∨ (∃ b, i = .remapByte b) ∨
      i ∈ [.subst0, .subst1, .subst2, .subst3, .subst4, .subst5, .subst6, .subst7,
        .subst8, .subst9, .subst10, .subst11, .subst12, .subst13, .subst14, .subst15]) →
    ∃ t, exec i s = .next t ∧ t = { s with result := t.result } ∧ t.result ≠ .nothing ∧
      ∀ a, outRead t a = outRead s a ∧ memRead t a = memRead s a

/-- `CFG` and `NOP` store no byte and leave all but `HDRLEN` alone (`NOP` that too). -/
def Obligations.CfgAndNopLeaveBytes : Prop :=
  ∀ (i : Instr) (s t : State), (i = .nop ∨ ∃ v, i = .cfg v) → exec i s = .next t →
    t = { s with hdrLen := t.hdrLen } ∧ (i = .nop → t.hdrLen = s.hdrLen) ∧
    ∀ a, outRead t a = outRead s a ∧ memRead t a = memRead s a

/-- `START` and `RESET` neither take nor deliver a byte and lose none: every byte taken and delivered so far stays where it was
in its stream; `START` leaves `HDRLEN`; what was returned, the queue and the output record stay. That an ended frame is kept,
and an empty one is not, is the model's choice (log entry 4). -/
def Obligations.FrameStartsLoseNoByte : Prop :=
  ∀ (i : Instr) (s t : State), (i = .start ∨ i = .reset) → exec i s = .next t →
    t.consumed = s.consumed ∧ t.delivered = s.delivered ∧ t.offset = 0 ∧
    (i = .start → t.hdrLen = s.hdrLen) ∧ t.result = s.result ∧ t.pending = s.pending ∧ t.pins = s.pins ∧
    (s.frame.inp = [] ∧ s.frame.out = [] → t.past = s.past) ∧
    (¬ (s.frame.inp = [] ∧ s.frame.out = []) → t.past = s.past ++ [s.frame])

/-- The transfers store one byte, at the offset equal to the number of bytes written so far (00_scope.md section 5), and every
other offset of both sequences reads as before; `HDRLEN`, the frame's header length, ended frames, queue and output record
stay. -/
def Obligations.TransferStoresOneByte : Prop :=
  ∀ (i : Instr) (b : Byte) (s t : State), (i = .xfer b ∨ i = .xferPass b ∨ i = .xferRemap b) → exec i s = .next t →
    t.hdrLen = s.hdrLen ∧ t.frame.hdr = s.frame.hdr ∧ t.past = s.past ∧ t.pending = s.pending ∧ t.pins = s.pins ∧
    outRead t s.frame.out.length = some (if s.hRem ≠ 0 then b else remapByte b) ∧
    memRead t s.offset = some b ∧
    (∀ a, a ≠ s.frame.out.length → outRead t a = outRead s a) ∧
    ∀ a, a ≠ s.offset → memRead t a = memRead s a

/-! ### Whole-machine rules -/

/-- `HDRLEN` is written by `CFG` and `RESET` and by nothing else, with the values R12's table gives (10_state.md section 2). -/
def Obligations.OnlyCfgAndResetWriteHdrLen : Prop :=
  ∀ (i : Instr) (s t : State), exec i s = .next t → t.hdrLen ≠ s.hdrLen →
    (∃ v, i = .cfg v ∧ t.hdrLen = v) ∨ (i = .reset ∧ t.hdrLen = 118)

/-- `HREM` is written by `START`, `RESET` and a transfer in header phase and by nothing else, with the values R13's table gives;
it never goes below 0 (10_state.md section 3). -/
def Obligations.WritersOfHRem : Prop :=
  ∀ (i : Instr) (s t : State), exec i s = .next t → t.hRem ≠ s.hRem →
    (i = .start ∧ t.hRem = s.hdrLen) ∨ (i = .reset ∧ t.hRem = 118) ∨
    (∃ b, (i = .xfer b ∨ i = .xferPass b) ∧ s.hRem ≠ 0 ∧ t.hRem + 1 = s.hRem)

/-- R16: the offset `k` and the relation `HREM = h -. k`, kept by every operation; the phase is header exactly when `k < h`. -/
def Obligations.OffsetCountsTransfers : Prop :=
  (∀ (i : Instr) (s t : State), exec i s = .next t →
    (i = .start ∨ i = .reset → t.offset = 0 ∧ t.hRem = t.frame.hdr) ∧
    ((∃ b, i = .xfer b ∨ i = .xferPass b ∨ i = .xferRemap b) → t.offset = s.offset + 1) ∧
    ((∃ v, i = .cfg v) ∨ i = .nop → t.offset = s.offset) ∧
    (s.hRem = s.frame.hdr - s.offset → t.hRem = t.frame.hdr - t.offset)) ∧
  ∀ s : State, s.hRem = s.frame.hdr - s.offset → (s.phase = .header ↔ s.offset < s.frame.hdr)

/-- The invariant is kept by every step: the registers keep their width, `HREM = h -. k`, and every frame's output is `remap`
of its input. -/
def Obligations.StepKeepsInvariant : Prop :=
  ∀ s t : State, Inv s → step s = .next t → Inv t

/-- The invariant holds right after reset. -/
def Obligations.ResetMeetsInvariant : Prop :=
  Inv State.reset

/-- The invariant holds whatever the registers hold before the first `RESET`; that they hold values of their width then is the
model's reading of the free values (log entry 2). -/
def Obligations.PowerUpMeetsInvariant : Prop :=
  Inv State.powerUp

/-- The canonical form of the byte sequences is kept by every step, and holds after reset. -/
def Obligations.StepKeepsMemoryForm : Prop :=
  Memory.wf State.reset = true ∧ ∀ s t : State, Memory.wf s = true → step s = .next t → Memory.wf t = true

/-- R31: in every frame as many bytes came out as went in, and header bytes are the same, wherever the invariant holds. -/
def Obligations.LengthPreservedHeaderIdentical : Prop :=
  ∀ s : State, Inv s → ∀ f, (f = s.frame ∨ f ∈ s.past) →
    f.out.length = f.inp.length ∧ (∀ k, k < min f.hdr f.inp.length → f.out[k]? = f.inp[k]?) ∧
    f.out.length = min f.hdr f.inp.length + (f.inp.drop f.hdr).length

/-- No step faults, and a step refuses exactly a clock cycle that performs a `CFG` with an operand of `2^LENW` or more
(60_exceptions.md section 1). That such a cycle is refused whole is the model's choice (log entry 11). -/
def Obligations.OnlyTooLongHeaderIsRefused : Prop :=
  ∀ s : State, (∀ f, step s ≠ .fault f) ∧
    ∀ r, step s = .refused r ↔ ∃ p rest, s.pending = .cycle p :: rest ∧ p.rst = false ∧ p.cfgWe = true ∧
      2 ^ Config.lenW ≤ p.cfgWdata ∧ r = .headerLengthTooLarge p.cfgWdata

/-! ### The function a frame computes -/

/-- R75: `remap`, by its definition with the effective header length and element by element. -/
def Obligations.RemapElementwise : Prop :=
  ∀ (s : List Byte) (h : Nat),
    remap s h = s.take (min h s.length) ++ (s.drop (min h s.length)).map remapByte ∧
    (remap s h).length = s.length ∧
    ∀ k, k < s.length → (remap s h)[k]? = if k < h then s[k]? else (s[k]?).map remapByte

/-- R78: the laws of `remap`. -/
def Obligations.RemapLaws : Prop :=
  (∀ (s : List Byte) (h : Nat),
    (remap s h).length = s.length ∧
    (remap s h).take h = s.take h ∧
    ((∃ b ∈ s.drop h, remapByte b ≠ b) → remap (remap s h) h ≠ s ∧ remap (remap s h) h ≠ remap s h) ∧
    applyTimes (fun u => remap u h) 5 s = s ∧
    ∀ t, remap (s ++ t) h = remap s h ++ remap t (h - s.length)) ∧
  remap [0x61] 0 = [0x14] ∧ remap [0x14] 0 = [0x45]

/-- R76: from every state, `CFG(h)`, `START` and the transfers, with `NOP`s anywhere and `CFG`s interleaved after the `START`,
deliver `remap(s, h)` and end with `HREM = h -. n` and the last header length written. A frame that follows `RESET` directly
delivers `remap(s, 118)` and ends likewise, again with `NOP`s anywhere and `CFG`s interleaved after the `RESET`. The traces
without anything interleaved, `FRAME` and `FRAMEDEF` of R48, are stated as well. -/
def Obligations.FrameComputesRemap : Prop :=
  (∀ (s : State) (h m n : Nat) (xs : List Instr), h < 2 ^ Config.lenW → (∀ i ∈ xs, mayStandInFrame i = true) →
    ∃ t, runEvents (List.replicate m .nop ++ .cfg h :: (List.replicate n .nop ++ .start :: xs)) s = .next t ∧
      t.frame.inp = xs.filterMap xferOperand ∧ t.frame.out = remap (xs.filterMap xferOperand) h ∧
      t.delivered = s.delivered ++ remap (xs.filterMap xferOperand) h ∧
      t.hRem = h - (xs.filterMap xferOperand).length ∧ t.hdrLen = (xs.filterMap cfgOperand).getLastD h) ∧
  (∀ (s : State) (h : Nat) (bs : List Byte), h < 2 ^ Config.lenW →
    ∃ t, runEvents (frameTrace h bs) s = .next t ∧ t.frame.out = remap bs h ∧ t.hdrLen = h ∧ t.hRem = h - bs.length) ∧
  (∀ (s : State) (m : Nat) (xs : List Instr), (∀ i ∈ xs, mayStandInFrame i = true) →
    ∃ t, runEvents (List.replicate m .nop ++ .reset :: xs) s = .next t ∧
      t.frame.inp = xs.filterMap xferOperand ∧ t.frame.out = remap (xs.filterMap xferOperand) 118 ∧
      t.delivered = s.delivered ++ remap (xs.filterMap xferOperand) 118 ∧
      t.hRem = 118 - (xs.filterMap xferOperand).length ∧ t.hdrLen = (xs.filterMap cfgOperand).getLastD 118) ∧
  ∀ (s : State) (bs : List Byte),
    ∃ t, runEvents (frameDefTrace bs) s = .next t ∧ t.frame.out = remap bs 118 ∧ t.hdrLen = 118 ∧ t.hRem = 118 - bs.length

/-- The degenerate frames (42_stream_operations.md section 7, R77): no header, no payload, header longer than the frame, the
empty frame. -/
def Obligations.DegenerateFrames : Prop :=
  ∀ (s : State) (h : Nat) (bs : List Byte), h < 2 ^ Config.lenW →
    ∃ t, runEvents (frameTrace h bs) s = .next t ∧
      (h = 0 → t.frame.out = bs.map remapByte ∧ t.hRem = 0) ∧
      (h = bs.length → t.frame.out = bs ∧ t.hRem = 0) ∧
      (bs.length < h → t.frame.out = bs ∧ t.hRem = h - bs.length ∧ t.hRem ≠ 0) ∧
      (bs = [] → t.frame.out = [] ∧ t.hRem = h)

/-- R18: after a `START` what happens to the frame depends on `HDRLEN` at that `START` and on the bytes alone, not on anything
an earlier frame left. -/
def Obligations.NoCarryOverBetweenFrames : Prop :=
  ∀ (s s' : State) (bs : List Byte), s.hdrLen = s'.hdrLen →
    ∃ t t', runEvents (.start :: xfers bs) s = .next t ∧ runEvents (.start :: xfers bs) s' = .next t' ∧
      t.frame = t'.frame ∧ t.hRem = t'.hRem ∧ t.hdrLen = t'.hdrLen

/-- R104: a `CFG` inside a frame does not move its boundary; the next `START` loads the new value; and a `start` in the cycle of
the `cfg_we` itself loads the old one. -/
def Obligations.CfgInsideFrameWaits : Prop :=
  ∀ (s : State) (v : Nat) (bs : List Byte), v < 2 ^ Config.lenW →
    (∃ t t', runEvents (.cfg v :: xfers bs) s = .next t ∧ runEvents (xfers bs) s = .next t' ∧
      t.frame = t'.frame ∧ t.hRem = t'.hRem ∧ t.hdrLen = v ∧
      ∃ u, exec .start t = .next u ∧ u.hRem = v ∧ u.frame.hdr = v) ∧
    ∀ (p : Pins) (rest : List Drive), s.pending = .cycle p :: rest → p.rst = false → p.start = true → p.cfgWe = true →
      p.cfgWdata = v → ∃ t, step s = .next t ∧ t.hRem = s.hdrLen ∧ t.hdrLen = v

/-- No length hazard: any number of transfers completes from every state, and `HREM` only counts down to 0
(70_reset_and_hazards.md section 3). -/
def Obligations.AnyLengthCompletes : Prop :=
  ∀ (s : State) (bs : List Byte), ∃ t, runEvents (xfers bs) s = .next t ∧
    t.frame.inp = s.frame.inp ++ bs ∧ t.frame.out = s.frame.out ++ remap bs s.hRem ∧ t.hRem = s.hRem - bs.length ∧
    t.hdrLen = s.hdrLen

/-- Without any `RESET`, `CFG(v)` and `START` give both registers defined values whatever they held (10_state.md section 10). -/
def Obligations.CfgStartDefineRegisters : Prop :=
  ∀ v, v < 2 ^ Config.lenW → ∃ t, runEvents [.cfg v, .start] State.powerUp = .next t ∧ t.hdrLen = v ∧ t.hRem = v

/-! ### The port level -/

/-- R83: the output ports of a cycle, from the state before its edge. -/
def Obligations.OutputsAreCombinational : Prop :=
  ∀ (s : State) (p : Pins) (rest : List Drive), s.pending = .cycle p :: rest →
    (p.rst = false → p.cfgWe = true → p.cfgWdata < 2 ^ Config.lenW) →
    ∃ t, step s = .next t ∧ t.pins = some {
      inReady := p.outReady && !p.rst
      outValid := p.inValid && !p.rst
      outData := if s.hRem ≠ 0 then p.inData else remapByte p.inData }

/-- R84: a byte is transferred exactly when `in_valid & out_ready & ~rst`: then `in_data` is taken and `out_data` delivered;
otherwise nothing is. -/
def Obligations.FireTransfersOneByte : Prop :=
  ∀ (s : State) (p : Pins) (rest : List Drive), s.pending = .cycle p :: rest →
    (p.rst = false → p.cfgWe = true → p.cfgWdata < 2 ^ Config.lenW) →
    ∃ t, step s = .next t ∧ t.pending = rest ∧
      (p.inValid = true ∧ p.outReady = true ∧ p.rst = false →
        t.consumed = s.consumed ++ [p.inData] ∧
        t.delivered = s.delivered ++ [if s.hRem ≠ 0 then p.inData else remapByte p.inData]) ∧
      (¬ (p.inValid = true ∧ p.outReady = true ∧ p.rst = false) →
        t.consumed = s.consumed ∧ t.delivered = s.delivered)

/-- R85: the registers after the edge of a cycle. -/
def Obligations.NextStateOfCycle : Prop :=
  ∀ (s : State) (p : Pins) (rest : List Drive), s.pending = .cycle p :: rest →
    (p.rst = false → p.cfgWe = true → p.cfgWdata < 2 ^ Config.lenW) →
    ∃ t, step s = .next t ∧
      (p.rst = true → t.hdrLen = 118 ∧ t.hRem = 118) ∧
      (p.rst = false → t.hdrLen = (if p.cfgWe then p.cfgWdata else s.hdrLen) ∧
        t.hRem = if p.start then s.hdrLen
          else if (p.inValid && p.outReady) = true ∧ s.hRem ≠ 0 then s.hRem - 1 else s.hRem) ∧
      t.hdrLen = nextHdrLen p s ∧ t.hRem = nextHRem p s

/-- R86: one clock cycle is the sequence `XFER`, `START`, `CFG`, each if its strobe is there, or `RESET` alone, or `NOP`. The
cycle's place in the queue and the record of its outputs are the model's own fields (log entries 3 and 5). -/
def Obligations.CycleIsItsEvents : Prop :=
  ∀ (s : State) (p : Pins) (rest : List Drive), s.pending = .cycle p :: rest →
    (p.rst = false → p.cfgWe = true → p.cfgWdata < 2 ^ Config.lenW) →
    step s = runEvents (
      if p.rst then [.reset]
      else if p.fire = false ∧ p.start = false ∧ p.cfgWe = false then [.nop]
      else (if p.fire then [.xfer p.inData] else []) ++ (if p.start then [.start] else []) ++
        (if p.cfgWe then [.cfg p.cfgWdata] else []))
      { s with pending := rest, pins := some (outputsOf p s) }

/-- A cycle without a transfer and without a strobe changes nothing but the record of the output ports: the block waits
(43_port_binding.md section 4). -/
def Obligations.WaitingCycleChangesNothing : Prop :=
  ∀ (s : State) (p : Pins) (rest : List Drive), s.pending = .cycle p :: rest →
    p.rst = false → p.cfgWe = false → p.start = false → (p.inValid = false ∨ p.outReady = false) →
    step s = .next { s with pending := rest, pins := some (outputsOf p s) }

/-- While `start` is held, transferred bytes decrement nothing, and from the second such cycle on each is processed with `HREM`
equal to the `HDRLEN` of the cycle before (43_port_binding.md section 4, R88). -/
def Obligations.HeldStartReloads : Prop :=
  ∀ (s : State) (p q : Pins) (rest : List Drive), s.pending = .cycle p :: .cycle q :: rest →
    p.rst = false → p.start = true → p.cfgWe = false → q.rst = false → q.start = true → q.cfgWe = false → q.fire = true →
    ∃ t u, step s = .next t ∧ t.hRem = s.hdrLen ∧ step t = .next u ∧ u.hRem = t.hdrLen ∧
      u.delivered = t.delivered ++ [if s.hdrLen ≠ 0 then q.inData else remapByte q.inData]
end

