-- ==== Sys2Proof/Laws/State.lean ====
section
/-! SUPPORT. Laws/State.lean: what each named operation leaves in each field of the state. -/

namespace Sys2Proof.Machine

@[simp] theorem takeByte_hdrLen (b : Byte) (s : State) : (takeByte b s).hdrLen = s.hdrLen := rfl
@[simp] theorem takeByte_hRem (b : Byte) (s : State) : (takeByte b s).hRem = s.hRem := rfl
@[simp] theorem takeByte_frame (b : Byte) (s : State) : (takeByte b s).frame = { s.frame with inp := s.frame.inp ++ [b] } := rfl
@[simp] theorem takeByte_past (b : Byte) (s : State) : (takeByte b s).past = s.past := rfl
@[simp] theorem takeByte_pending (b : Byte) (s : State) : (takeByte b s).pending = s.pending := rfl
@[simp] theorem takeByte_result (b : Byte) (s : State) : (takeByte b s).result = s.result := rfl
@[simp] theorem takeByte_pins (b : Byte) (s : State) : (takeByte b s).pins = s.pins := rfl

@[simp] theorem memWrite_hdrLen (v : Byte) (s : State) : (memWrite v s).hdrLen = s.hdrLen := rfl
@[simp] theorem memWrite_hRem (v : Byte) (s : State) : (memWrite v s).hRem = s.hRem := rfl
@[simp] theorem memWrite_frame (v : Byte) (s : State) : (memWrite v s).frame = { s.frame with out := s.frame.out ++ [v] } := rfl
@[simp] theorem memWrite_past (v : Byte) (s : State) : (memWrite v s).past = s.past := rfl
@[simp] theorem memWrite_pending (v : Byte) (s : State) : (memWrite v s).pending = s.pending := rfl
@[simp] theorem memWrite_result (v : Byte) (s : State) : (memWrite v s).result = .byte v := rfl
@[simp] theorem memWrite_pins (v : Byte) (s : State) : (memWrite v s).pins = s.pins := rfl

@[simp] theorem countHeaderByte_hdrLen (s : State) : (countHeaderByte s).hdrLen = s.hdrLen := rfl
@[simp] theorem countHeaderByte_hRem (s : State) : (countHeaderByte s).hRem = s.hRem - 1 := rfl
@[simp] theorem countHeaderByte_frame (s : State) : (countHeaderByte s).frame = s.frame := rfl
@[simp] theorem countHeaderByte_past (s : State) : (countHeaderByte s).past = s.past := rfl
@[simp] theorem countHeaderByte_pending (s : State) : (countHeaderByte s).pending = s.pending := rfl
@[simp] theorem countHeaderByte_result (s : State) : (countHeaderByte s).result = s.result := rfl
@[simp] theorem countHeaderByte_pins (s : State) : (countHeaderByte s).pins = s.pins := rfl

@[simp] theorem passByte_hdrLen (b : Byte) (s : State) : (passByte b s).hdrLen = s.hdrLen := rfl
@[simp] theorem passByte_hRem (b : Byte) (s : State) : (passByte b s).hRem = s.hRem - 1 := rfl
@[simp] theorem passByte_frame (b : Byte) (s : State) : (passByte b s).frame = { s.frame with inp := s.frame.inp ++ [b], out := s.frame.out ++ [b] } := rfl
@[simp] theorem passByte_past (b : Byte) (s : State) : (passByte b s).past = s.past := rfl
@[simp] theorem passByte_pending (b : Byte) (s : State) : (passByte b s).pending = s.pending := rfl
@[simp] theorem passByte_result (b : Byte) (s : State) : (passByte b s).result = .byte b := rfl
@[simp] theorem passByte_pins (b : Byte) (s : State) : (passByte b s).pins = s.pins := rfl

@[simp] theorem sendRemapped_hdrLen (b : Byte) (s : State) : (sendRemapped b s).hdrLen = s.hdrLen := rfl
@[simp] theorem sendRemapped_hRem (b : Byte) (s : State) : (sendRemapped b s).hRem = s.hRem := rfl
@[simp] theorem sendRemapped_frame (b : Byte) (s : State) : (sendRemapped b s).frame = { s.frame with inp := s.frame.inp ++ [b], out := s.frame.out ++ [remapByte b] } := rfl
@[simp] theorem sendRemapped_past (b : Byte) (s : State) : (sendRemapped b s).past = s.past := rfl
@[simp] theorem sendRemapped_pending (b : Byte) (s : State) : (sendRemapped b s).pending = s.pending := rfl
@[simp] theorem sendRemapped_result (b : Byte) (s : State) : (sendRemapped b s).result = .byte (remapByte b) := rfl
@[simp] theorem sendRemapped_pins (b : Byte) (s : State) : (sendRemapped b s).pins = s.pins := rfl

@[simp] theorem beginFrame_hdrLen (h : Nat) (s : State) : (beginFrame h s).hdrLen = s.hdrLen := rfl
@[simp] theorem beginFrame_hRem (h : Nat) (s : State) : (beginFrame h s).hRem = h := rfl
@[simp] theorem beginFrame_frame (h : Nat) (s : State) : (beginFrame h s).frame = { hdr := h, inp := [], out := [] } := rfl
@[simp] theorem beginFrame_past (h : Nat) (s : State) : (beginFrame h s).past = framesWhenClosed s := rfl
@[simp] theorem beginFrame_pending (h : Nat) (s : State) : (beginFrame h s).pending = s.pending := rfl
@[simp] theorem beginFrame_result (h : Nat) (s : State) : (beginFrame h s).result = s.result := rfl
@[simp] theorem beginFrame_pins (h : Nat) (s : State) : (beginFrame h s).pins = s.pins := rfl

@[simp] theorem returnValue_hdrLen (r : Returned) (s : State) : (returnValue r s).hdrLen = s.hdrLen := rfl
@[simp] theorem returnValue_hRem (r : Returned) (s : State) : (returnValue r s).hRem = s.hRem := rfl
@[simp] theorem returnValue_frame (r : Returned) (s : State) : (returnValue r s).frame = s.frame := rfl
@[simp] theorem returnValue_past (r : Returned) (s : State) : (returnValue r s).past = s.past := rfl
@[simp] theorem returnValue_pending (r : Returned) (s : State) : (returnValue r s).pending = s.pending := rfl
@[simp] theorem returnValue_result (r : Returned) (s : State) : (returnValue r s).result = r := rfl
@[simp] theorem returnValue_pins (r : Returned) (s : State) : (returnValue r s).pins = s.pins := rfl

@[simp] theorem showOutputs_hdrLen (d : Drive) (s : State) : (showOutputs d s).hdrLen = s.hdrLen := by cases d <;> rfl
@[simp] theorem showOutputs_hRem (d : Drive) (s : State) : (showOutputs d s).hRem = s.hRem := by cases d <;> rfl
@[simp] theorem showOutputs_frame (d : Drive) (s : State) : (showOutputs d s).frame = s.frame := by cases d <;> rfl
@[simp] theorem showOutputs_past (d : Drive) (s : State) : (showOutputs d s).past = s.past := by cases d <;> rfl
@[simp] theorem showOutputs_pending (d : Drive) (s : State) : (showOutputs d s).pending = s.pending := by cases d <;> rfl
@[simp] theorem showOutputs_result (d : Drive) (s : State) : (showOutputs d s).result = s.result := by cases d <;> rfl

/-- The phase read off `HREM` (10_state.md R14). -/
theorem phase_of_ne_zero {s : State} (h : s.hRem ≠ 0) : s.phase = .header := if_pos h

theorem phase_of_eq_zero {s : State} (h : s.hRem = 0) : s.phase = .payload := if_neg (not_not.mpr h)

theorem phase_eq_header_iff (s : State) : s.phase = .header ↔ s.hRem ≠ 0 := by
  unfold State.phase; split <;> simp_all

theorem phase_eq_payload_iff (s : State) : s.phase = .payload ↔ s.hRem = 0 := by
  unfold State.phase; split <;> simp_all

/-- Ending a frame loses no byte. -/
theorem framesWhenClosed_out (s : State) : (framesWhenClosed s).flatMap Frame.out = s.delivered := by
  unfold framesWhenClosed State.delivered
  split <;> simp_all

theorem framesWhenClosed_inp (s : State) : (framesWhenClosed s).flatMap Frame.inp = s.consumed := by
  unfold framesWhenClosed State.consumed
  split <;> simp_all

@[simp] theorem beginFrame_delivered (h : Nat) (s : State) : (beginFrame h s).delivered = s.delivered := by
  simp [State.delivered, framesWhenClosed_out]

@[simp] theorem beginFrame_consumed (h : Nat) (s : State) : (beginFrame h s).consumed = s.consumed := by
  simp [State.consumed, framesWhenClosed_inp]

@[simp] theorem passByte_delivered (b : Byte) (s : State) : (passByte b s).delivered = s.delivered ++ [b] := by
  simp [State.delivered]

@[simp] theorem passByte_consumed (b : Byte) (s : State) : (passByte b s).consumed = s.consumed ++ [b] := by
  simp [State.consumed]

@[simp] theorem sendRemapped_delivered (b : Byte) (s : State) :
    (sendRemapped b s).delivered = s.delivered ++ [remapByte b] := by simp [State.delivered]

@[simp] theorem sendRemapped_consumed (b : Byte) (s : State) : (sendRemapped b s).consumed = s.consumed ++ [b] := by
  simp [State.consumed]

/-- An ended frame is the one that was current, or one that had ended before. -/
theorem mem_framesWhenClosed {f : Frame} {s : State} (h : f ∈ framesWhenClosed s) :
    f ∈ s.past ∨ f = s.frame ∧ ¬ (s.frame.inp = [] ∧ s.frame.out = []) := by
  unfold framesWhenClosed at h
  split at h
  · exact .inl h
  · rename_i hne
    simp only [List.mem_append, List.mem_singleton] at h
    exact h.imp_right (⟨·, hne⟩)

end Sys2Proof.Machine
end

