-- ==== Sys2Proof/Laws/Exec.lean ====
section
/-! SUPPORT. Laws/Exec.lean: what one instruction, a sequence of them, and a step can do. -/

namespace Sys2Proof.Config

/-- The port holds `LENW` bits, and `LENW >= 7` (00_scope.md R6). -/
theorem seven_le_lenW : 7 ≤ lenW := Nat.le_add_left 7 lenWAboveSeven

theorem fitsLenW_iff (v : Nat) : fitsLenW v = true ↔ v < 2 ^ lenW := by
  have h : 2 ^ 7 ≤ 2 ^ lenW := Nat.pow_le_pow_right (by decide) seven_le_lenW
  simp only [fitsLenW, Bool.or_eq_true, decide_eq_true_eq]
  omega

/-- What seven bits hold, every port holds. -/
theorem lt_width {v : Nat} (h : v < 128) : v < 2 ^ lenW := (fitsLenW_iff v).mp (by simp [fitsLenW, h])

theorem hdrLenReset_lt : hdrLenReset < 2 ^ lenW := (fitsLenW_iff _).mp (by decide)

end Sys2Proof.Config

namespace Sys2Proof.Machine

theorem exec_reset (s : State) :
    exec .reset s = .next (beginFrame Config.hdrLenReset { s with hdrLen := Config.hdrLenReset }) := rfl

theorem exec_cfg (v : Nat) (s : State) : exec (.cfg v) s =
    if v < 2 ^ Config.lenW then .next { s with hdrLen := v } else .refused (.headerLengthTooLarge v) := by
  change execCfg v s = _
  unfold execCfg
  simp only [Config.fitsLenW_iff]

theorem exec_start (s : State) : exec .start s = .next (beginFrame s.hdrLen s) := rfl

theorem exec_nop (s : State) : exec .nop s = .next s := rfl

theorem exec_xferPass (b : Byte) (s : State) : exec (.xferPass b) s =
    if s.hRem ≠ 0 then .next (passByte b s) else .refused (.phaseMismatch "XFER.PASS") := by
  change execXferPass b s = _
  unfold execXferPass State.phase
  split <;> simp_all

theorem exec_xferRemap (b : Byte) (s : State) : exec (.xferRemap b) s =
    if s.hRem = 0 then .next (sendRemapped b s) else .refused (.phaseMismatch "XFER.REMAP") := by
  change execXferRemap b s = _
  unfold execXferRemap State.phase
  split <;> simp_all

theorem exec_xfer (b : Byte) (s : State) : exec (.xfer b) s =
    .next (if s.hRem ≠ 0 then passByte b s else sendRemapped b s) := by
  change execXfer b s = _
  unfold execXfer State.phase
  split <;> simp_all

theorem exec_split (b : Byte) (s : State) :
    exec (.split b) s = .next (returnValue (.indices (highIndex b) (lowIndex b)) s) := rfl

theorem exec_pack (h l : Index) (s : State) : exec (.pack h l) s = .next (returnValue (.byte (packIndices h l)) s) := rfl

theorem exec_remapByte (b : Byte) (s : State) :
    exec (.remapByte b) s = .next (returnValue (.byte (remapByte b)) s) := rfl

theorem exec_subst0 (s : State) : exec .subst0 s = .next (returnValue (.index (subst 0)) s) := rfl
theorem exec_subst1 (s : State) : exec .subst1 s = .next (returnValue (.index (subst 1)) s) := rfl
theorem exec_subst2 (s : State) : exec .subst2 s = .next (returnValue (.index (subst 2)) s) := rfl
theorem exec_subst3 (s : State) : exec .subst3 s = .next (returnValue (.index (subst 3)) s) := rfl
theorem exec_subst4 (s : State) : exec .subst4 s = .next (returnValue (.index (subst 4)) s) := rfl
theorem exec_subst5 (s : State) : exec .subst5 s = .next (returnValue (.index (subst 5)) s) := rfl
theorem exec_subst6 (s : State) : exec .subst6 s = .next (returnValue (.index (subst 6)) s) := rfl
theorem exec_subst7 (s : State) : exec .subst7 s = .next (returnValue (.index (subst 7)) s) := rfl
theorem exec_subst8 (s : State) : exec .subst8 s = .next (returnValue (.index (subst 8)) s) := rfl
theorem exec_subst9 (s : State) : exec .subst9 s = .next (returnValue (.index (subst 9)) s) := rfl
theorem exec_subst10 (s : State) : exec .subst10 s = .next (returnValue (.index (subst 10)) s) := rfl
theorem exec_subst11 (s : State) : exec .subst11 s = .next (returnValue (.index (subst 11)) s) := rfl
theorem exec_subst12 (s : State) : exec .subst12 s = .next (returnValue (.index (subst 12)) s) := rfl
theorem exec_subst13 (s : State) : exec .subst13 s = .next (returnValue (.index (subst 13)) s) := rfl
theorem exec_subst14 (s : State) : exec .subst14 s = .next (returnValue (.index (subst 14)) s) := rfl
theorem exec_subst15 (s : State) : exec .subst15 s = .next (returnValue (.index (subst 15)) s) := rfl

/-- Everything an instruction that answers a next state can have done. -/
theorem exec_next_cases {i : Instr} {s t : State} (h : exec i s = .next t) :
    t = s ∨ (∃ r, t = returnValue r s) ∨
    (∃ v, i = .cfg v ∧ v < 2 ^ Config.lenW ∧ t = { s with hdrLen := v }) ∨
    (i = .reset ∧ t = beginFrame Config.hdrLenReset { s with hdrLen := Config.hdrLenReset }) ∨
    (i = .start ∧ t = beginFrame s.hdrLen s) ∨
    (∃ b, (i = .xfer b ∨ i = .xferPass b) ∧ s.hRem ≠ 0 ∧ t = passByte b s) ∨
    (∃ b, (i = .xfer b ∨ i = .xferRemap b) ∧ s.hRem = 0 ∧ t = sendRemapped b s) := by
  cases i with
  | cfg v =>
    rw [exec_cfg] at h
    split at h <;> simp_all
  | xfer b =>
    rw [exec_xfer] at h
    by_cases hz : s.hRem = 0 <;> simp_all
  | xferPass b =>
    rw [exec_xferPass] at h
    split at h <;> simp_all
  | xferRemap b =>
    rw [exec_xferRemap] at h
    split at h <;> simp_all
  | reset => rw [exec_reset] at h; cases h; simp
  | start => rw [exec_start] at h; cases h; simp
  | nop => cases h; exact .inl rfl
  | _ => cases h; exact .inr (.inl ⟨_, rfl⟩)

/-- No instruction touches the host's queue or the record of the output ports. -/
theorem exec_keeps_pending {i : Instr} {s t : State} (h : exec i s = .next t) : t.pending = s.pending ∧ t.pins = s.pins := by
  rcases exec_next_cases h with rfl | ⟨_, rfl⟩ | ⟨_, _, _, rfl⟩ | ⟨_, rfl⟩ | ⟨_, rfl⟩ | ⟨_, _, _, rfl⟩ | ⟨_, _, _, rfl⟩ <;>
    simp

@[simp] theorem runEvents_nil (s : State) : runEvents [] s = .next s := rfl

theorem runEvents_cons_next {i : Instr} {is : List Instr} {s t : State} (h : exec i s = .next t) :
    runEvents (i :: is) s = runEvents is t := by simp [runEvents, h]

theorem runEvents_cons_refused {i : Instr} {is : List Instr} {s : State} {r : Refusal} (h : exec i s = .refused r) :
    runEvents (i :: is) s = .refused r := by simp [runEvents, h]

/-- A sequence that answers a next state, taken apart at its head. -/
theorem runEvents_cons_cases {i : Instr} {is : List Instr} {s u : State} (h : runEvents (i :: is) s = .next u) :
    ∃ t, exec i s = .next t ∧ runEvents is t = .next u := by
  unfold runEvents at h
  split at h
  · exact ⟨_, ‹_›, h⟩
  · cases h
  · cases h

/-- A sequence in two parts: the second goes on from where the first ends. -/
theorem runEvents_append_next {xs ys : List Instr} {s t : State} (h : runEvents xs s = .next t) :
    runEvents (xs ++ ys) s = runEvents ys t := by
  induction xs generalizing s with
  | nil => cases h; rfl
  | cons i xs ih =>
    obtain ⟨u, hu, ht⟩ := runEvents_cons_cases h
    rw [List.cons_append, runEvents_cons_next hu, ih ht]

theorem runEvents_single (i : Instr) (s : State) : runEvents [i] s = exec i s := by
  unfold runEvents
  cases exec i s <;> rfl

/-- Whatever every instruction keeps, a sequence keeps. -/
theorem runEvents_keeps {P : State → Prop} (hP : ∀ i s t, exec i s = .next t → P s → P t) :
    ∀ {is : List Instr} {s t : State}, runEvents is s = .next t → P s → P t
  | [], _, _, h, hs => by cases h; exact hs
  | _ :: _, _, _, h, hs => by
    obtain ⟨u, hu, ht⟩ := runEvents_cons_cases h
    exact runEvents_keeps hP ht (hP _ _ _ hu hs)

/-- A step that answers a next state idled, or performed the operations its presentation decodes to. -/
theorem step_next_cases {s t : State} (h : step s = .next t) :
    (s.pending = [] ∧ t = s) ∨
    ∃ d rest is, s.pending = d :: rest ∧ decode s.phase d = .ok is ∧
      runEvents is (showOutputs d { s with pending := rest }) = .next t := by
  unfold step stepHost at h
  split at h
  · cases h; exact .inl ⟨‹_›, rfl⟩
  · rename_i d rest hp
    unfold runDrive at h
    have hph : (State.phase { s with pending := rest }) = s.phase := rfl
    rw [hph] at h
    split at h
    · exact .inr ⟨d, rest, _, hp, ‹_›, h⟩
    · cases h

/-- The canonical form of the byte sequences is kept by every operation over them. -/
theorem memory_wf_iff (s : State) : Memory.wf s = true ↔
    s.frame.out.length = s.frame.inp.length ∧ ∀ f ∈ s.past, f.out.length = f.inp.length ∧ f.inp ≠ [] := by
  simp [Memory.wf, List.all_eq_true]

theorem passByte_keeps_wf {b : Byte} {s : State} (h : Memory.wf s = true) : Memory.wf (passByte b s) = true := by
  simp only [memory_wf_iff] at h ⊢
  simpa using h

theorem sendRemapped_keeps_wf {b : Byte} {s : State} (h : Memory.wf s = true) : Memory.wf (sendRemapped b s) = true := by
  simp only [memory_wf_iff] at h ⊢
  simpa using h

theorem beginFrame_keeps_wf {n : Nat} {s : State} (h : Memory.wf s = true) : Memory.wf (beginFrame n s) = true := by
  rw [memory_wf_iff] at h ⊢
  refine ⟨rfl, fun f hf => ?_⟩
  rcases mem_framesWhenClosed hf with hf | ⟨rfl, hne⟩
  · exact h.2 f hf
  · refine ⟨h.1, fun hi => hne ⟨hi, ?_⟩⟩
    have := h.1
    simp_all

theorem reset_memory_wf : Memory.wf State.reset = true := by decide

end Sys2Proof.Machine
end

