-- ==== Sys2Proof/Laws/Decode.lean ====
section
/-! SUPPORT. Laws/Decode.lean: what a clock cycle's control word selects, and when a cycle is rejected. -/

namespace Sys2Proof

/-- The operand of `CFG` is on the wires only when the cycle performs a `CFG` (43_port_binding.md R81, R86). -/
abbrev Pins.operandFits (p : Pins) : Prop := p.rst = false → p.cfgWe = true → p.cfgWdata < 2 ^ Config.lenW

/-- R46's table read on the four wires: `RESET` alone, or `XFER`, `START`, `CFG` in this order, or `NOP`. -/
theorem selectedEvents_of_wires : ∀ r w s f : Bool,
    selectedEvents (BitVec.ofBool r ++ BitVec.ofBool w ++ BitVec.ofBool s ++ BitVec.ofBool f) =
      if r then [.reset] else if !f && !s && !w then [.nop]
      else (if f then [.xfer] else []) ++ (if s then [.start] else []) ++ (if w then [.cfg] else []) := by decide

theorem instrs_eq (p : Pins) : p.instrs =
    (if p.rst then [.reset] else if !p.fire && !p.start && !p.cfgWe then [.nop]
      else (if p.fire then [.xfer] else []) ++ (if p.start then [.start] else []) ++
        (if p.cfgWe then [.cfg] else []) : List Event).map (Event.toInstr p) :=
  congrArg (List.map (Event.toInstr p)) (selectedEvents_of_wires p.rst p.cfgWe p.start p.fire)

theorem instrs_of_rst {p : Pins} (h : p.rst = true) : p.instrs = [.reset] := by
  rw [instrs_eq, h]; rfl

theorem instrs_of_idle {p : Pins} (hr : p.rst = false) (hf : p.fire = false) (hs : p.start = false)
    (hc : p.cfgWe = false) : p.instrs = [.nop] := by
  rw [instrs_eq, hr, hf, hs, hc]; rfl

theorem instrs_of_busy {p : Pins} (hr : p.rst = false) (hb : p.fire = true ∨ p.start = true ∨ p.cfgWe = true) :
    p.instrs = (if p.fire then [.xfer p.inData] else []) ++ (if p.start then [.start] else []) ++
      (if p.cfgWe then [.cfg p.cfgWdata] else []) := by
  rw [instrs_eq, hr]
  revert hb
  cases p.fire <;> cases p.start <;> cases p.cfgWe <;> simp [Event.toInstr]

/-- A cycle is rejected only for the operand of a `CFG` it performs. -/
theorem instrs_wellFormed_iff (p : Pins) : p.instrs.all Instr.wellFormed = true ↔ p.operandFits := by
  rw [instrs_eq, Pins.operandFits, ← Config.fitsLenW_iff]
  cases p.rst <;> cases p.fire <;> cases p.start <;> cases p.cfgWe <;> simp [Event.toInstr, Instr.wellFormed]

theorem decodeCycle_of_fits {p : Pins} (h : p.operandFits) : decodeCycle p = .ok p.instrs :=
  if_pos ((instrs_wellFormed_iff p).mpr h)

theorem decodeCycle_of_not_fits {p : Pins} (h : ¬ p.operandFits) :
    decodeCycle p = .error (.headerLengthTooLarge p.cfgWdata) :=
  if_neg fun hw => h ((instrs_wellFormed_iff p).mp hw)

/-- Every index selects one ROM row, and no two rows match the same index. -/
theorem decodeIndex_one : ∀ i : Index, (decodeIndex i).length = 1 := by decide

end Sys2Proof
end

