-- ==== Sys2Proof/Laws/PerInstr.lean ====
section
/-! SUPPORT. Laws/PerInstr.lean: the family RoundTrip, one lemma per constructor: how an instruction is presented is how it
is read. -/

namespace Sys2Proof.Laws.RoundTrip

/-- Presented alone, the instruction is what the decoder reads, in every phase that can select it. -/
def Statement (i : Instr) : Prop :=
  ∀ ph : Phase, i.wellFormed = true → i.selectableIn ph = true → decode ph (encode i) = .ok [i]

/-- The wires of a pair of indices, `hi` in bits 7:4 and `lo` in bits 3:0 (30_encoding.md R40). -/
theorem highWires_of_pair : ∀ h l : Index, (h ++ l).extractLsb' 4 4 = h := by decide
theorem lowWires_of_pair : ∀ h l : Index, (h ++ l).extractLsb' 0 4 = l := by decide

theorem reset : Statement .reset := fun _ _ _ => rfl
theorem cfg (v : Nat) : Statement (.cfg v) := fun _ hw _ =>
  (decodeCycle_of_fits (p := { cfgWe := true, cfgWdata := v }) fun _ _ => (Config.fitsLenW_iff v).mp hw).trans
    (by rw [instrs_eq]; rfl)
theorem start : Statement .start := fun _ _ _ => rfl
theorem xfer (b : Byte) : Statement (.xfer b) := fun _ _ _ =>
  (decodeCycle_of_fits (p := { inValid := true, inData := b, outReady := true }) fun _ h => nomatch h).trans
    (by rw [instrs_eq]; rfl)
theorem nop : Statement .nop := fun _ _ _ => rfl
theorem xferPass (b : Byte) : Statement (.xferPass b) := fun ph _ hs => by
  cases ph
  · rfl
  · cases hs
theorem xferRemap (b : Byte) : Statement (.xferRemap b) := fun ph _ hs => by
  cases ph
  · cases hs
  · rfl
theorem split (b : Byte) : Statement (.split b) := fun _ _ _ => rfl
theorem pack (h l : Index) : Statement (.pack h l) := fun _ _ _ => by
  simp only [encode, decode, highWires_of_pair, lowWires_of_pair]
theorem remapByte (b : Byte) : Statement (.remapByte b) := fun _ _ _ => rfl
theorem subst0 : Statement .subst0 := fun _ _ _ => congrArg Except.ok (by decide : decodeIndex 0 = [.subst0])
theorem subst1 : Statement .subst1 := fun _ _ _ => congrArg Except.ok (by decide : decodeIndex 1 = [.subst1])
theorem subst2 : Statement .subst2 := fun _ _ _ => congrArg Except.ok (by decide : decodeIndex 2 = [.subst2])
theorem subst3 : Statement .subst3 := fun _ _ _ => congrArg Except.ok (by decide : decodeIndex 3 = [.subst3])
theorem subst4 : Statement .subst4 := fun _ _ _ => congrArg Except.ok (by decide : decodeIndex 4 = [.subst4])
theorem subst5 : Statement .subst5 := fun _ _ _ => congrArg Except.ok (by decide : decodeIndex 5 = [.subst5])
theorem subst6 : Statement .subst6 := fun _ _ _ => congrArg Except.ok (by decide : decodeIndex 6 = [.subst6])
theorem subst7 : Statement .subst7 := fun _ _ _ => congrArg Except.ok (by decide : decodeIndex 7 = [.subst7])
theorem subst8 : Statement .subst8 := fun _ _ _ => congrArg Except.ok (by decide : decodeIndex 8 = [.subst8])
theorem subst9 : Statement .subst9 := fun _ _ _ => congrArg Except.ok (by decide : decodeIndex 9 = [.subst9])
theorem subst10 : Statement .subst10 := fun _ _ _ => congrArg Except.ok (by decide : decodeIndex 10 = [.subst10])
theorem subst11 : Statement .subst11 := fun _ _ _ => congrArg Except.ok (by decide : decodeIndex 11 = [.subst11])
theorem subst12 : Statement .subst12 := fun _ _ _ => congrArg Except.ok (by decide : decodeIndex 12 = [.subst12])
theorem subst13 : Statement .subst13 := fun _ _ _ => congrArg Except.ok (by decide : decodeIndex 13 = [.subst13])
theorem subst14 : Statement .subst14 := fun _ _ _ => congrArg Except.ok (by decide : decodeIndex 14 = [.subst14])
theorem subst15 : Statement .subst15 := fun _ _ _ => congrArg Except.ok (by decide : decodeIndex 15 = [.subst15])

end Sys2Proof.Laws.RoundTrip
end

