-- ==== Sys2Proof/Laws/Remap.lean ====
section
/-! SUPPORT. Laws/Remap.lean: the small lemmas of `remap` and of the byte functions under it. -/

namespace Sys2Proof.Machine

@[simp] theorem remap_nil (h : Nat) : remap [] h = [] := by simp [remap]

@[simp] theorem remap_length (s : List Byte) (h : Nat) : (remap s h).length = s.length := by
  simp only [remap, List.length_append, List.length_take, List.length_map, List.length_drop]
  omega

/-- One more byte, still in the header. -/
theorem remap_snoc_header {s : List Byte} {h : Nat} (b : Byte) (hk : s.length < h) :
    remap (s ++ [b]) h = remap s h ++ [b] := by
  have h1 : s.length + 1 ≤ h := hk
  simp [remap, List.take_of_length_le, List.drop_eq_nil_of_le, h1, Nat.le_of_lt hk]

/-- One more byte, in the payload. -/
theorem remap_snoc_payload {s : List Byte} {h : Nat} (b : Byte) (hk : h ≤ s.length) :
    remap (s ++ [b]) h = remap s h ++ [remapByte b] := by
  simp [remap, List.take_append_of_le_length hk, List.drop_append_of_le_length hk]

theorem remap_cons_header (b : Byte) (s : List Byte) (h : Nat) : remap (b :: s) (h + 1) = b :: remap s h := by simp [remap]

theorem remap_cons_payload (b : Byte) (s : List Byte) : remap (b :: s) 0 = remapByte b :: remap s 0 := by simp [remap]

theorem highIndex_packIndices (h l : Index) : highIndex (packIndices h l) = h := by revert h l; decide

theorem lowIndex_packIndices (h l : Index) : lowIndex (packIndices h l) = l := by revert h l; decide

end Sys2Proof.Machine
end

