-- ==== Sys2Proof/Tests/Slice0.lean ====
section
/-! SUPPORT. Tests/Slice0.lean: small tests, each with its expected value from spec/95_test_vectors.md, and for each statement
with hypotheses a concrete case that meets them. -/

namespace Sys2Proof.Tests

open Machine

/-- A state with the two registers given, at the start of a frame. -/
def st (h r : Nat) : State := { State.reset with hdrLen := h, hRem := r, frame := { hdr := r, inp := [], out := [] } }

/-- The same with one presentation pending. -/
def stWith (h r : Nat) (d : Drive) : State := { st h r with pending := [d] }

/-- The registers of a next state. -/
def regs : Answer → Option (Nat × Nat)
  | .next s => some (s.hdrLen, s.hRem)
  | _ => none

/-- The value returned and the registers of a next state. -/
def seen : Answer → Option (Nat × Nat × Returned)
  | .next s => some (s.hdrLen, s.hRem, s.result)
  | _ => none

/-- The bytes delivered by a next state. -/
def bytes : Answer → Option (List Byte)
  | .next s => some s.delivered
  | _ => none

/-- Is the answer a next state? -/
def isNext : Answer → Bool
  | .next _ => true
  | _ => false

theorem next_of_isNext : ∀ {a : Answer}, isNext a = true → ∃ t, a = .next t
  | .next t, _ => ⟨t, rfl⟩

/-! ### Well-formedness, one ill-formed term for each check -/

theorem test_cfg_too_long_is_ill_formed : (Instr.cfg (2 ^ Config.lenW)).wellFormed = false := by
  have h := Config.fitsLenW_iff (2 ^ Config.lenW)
  simp only [Instr.wellFormed]
  by_contra hc
  rw [Bool.not_eq_false] at hc
  exact absurd (h.mp hc) (Nat.lt_irrefl _)

theorem test_cfg_longest_is_well_formed : (Instr.cfg (2 ^ Config.lenW - 1)).wellFormed = true :=
  (Config.fitsLenW_iff _).mpr (Nat.sub_lt (Nat.two_pow_pos _) Nat.one_pos)

theorem test_selectable : (Instr.xferPass 0).selectableIn .payload = false ∧ (Instr.xferRemap 0).selectableIn .header = false ∧
    (Instr.xferPass 0).selectableIn .header = true ∧ (Instr.xferRemap 0).selectableIn .payload = true := by decide

/-! ### Decoding: words written out from R40 to R46 and from opcode_table.json -/

/-- RESET, pattern `1xxx`: the other strobes do not matter. -/
theorem test_decode_reset : decode .header (.cycle (pinsOfControlWord 0b1111#4)) = .ok [.reset] := by decide
/-- CFG, pattern `01xx`. -/
theorem test_decode_cfg : decode .header (.cycle (pinsOfControlWord 0b0100#4)) = .ok [.cfg 0] := by decide
/-- START, pattern `0x1x`. -/
theorem test_decode_start : decode .header (.cycle (pinsOfControlWord 0b0010#4)) = .ok [.start] := by decide
/-- XFER, pattern `0xx1`. -/
theorem test_decode_xfer : decode .header (.cycle (pinsOfControlWord 0b0001#4)) = .ok [.xfer 0] := by decide
/-- NOP, pattern `0000`. -/
theorem test_decode_nop : decode .header (.cycle (pinsOfControlWord 0b0000#4)) = .ok [.nop] := by decide
/-- R86's order. -/
theorem test_decode_all_three : decode .header (.cycle (pinsOfControlWord 0b0111#4)) = .ok [.xfer 0, .start, .cfg 0] := by decide
/-- No byte is transferred in a reset cycle, so bit 0 of its control word is 0 (R46). -/
theorem test_control_word_in_reset :
    Pins.controlWord { rst := true, inValid := true, outReady := true } = 0b1000#4 := by decide
/-- Format H and format P are the same eight wires (R39, R45). -/
theorem test_decode_data_byte :
    decode .header (.dataByte 0b01100001#8) = .ok [.xferPass 0x61] ∧
    decode .payload (.dataByte 0b01100001#8) = .ok [.xferRemap 0x61] := by decide
/-- Pattern `hhhhllll` on the three byte functions. -/
theorem test_decode_byte_functions :
    decode .header (.splitIn 0b01100001#8) = .ok [.split 0x61] ∧
    decode .header (.repackIn 0b00010100#8) = .ok [.pack 0b0001#4 0b0100#4] ∧
    decode .payload (.lanesIn 0b01110010#8) = .ok [.remapByte 0x72] := by decide
/-- The sixteen rows of the ROM, index by index. -/
theorem test_decode_rom_rows :
    decode .header (.romIn 0b0000#4) = .ok [.subst0] ∧ decode .header (.romIn 0b0001#4) = .ok [.subst1] ∧
    decode .header (.romIn 0b0010#4) = .ok [.subst2] ∧ decode .header (.romIn 0b0011#4) = .ok [.subst3] ∧
    decode .header (.romIn 0b0100#4) = .ok [.subst4] ∧ decode .header (.romIn 0b0101#4) = .ok [.subst5] ∧
    decode .header (.romIn 0b0110#4) = .ok [.subst6] ∧ decode .header (.romIn 0b0111#4) = .ok [.subst7] ∧
    decode .header (.romIn 0b1000#4) = .ok [.subst8] ∧ decode .header (.romIn 0b1001#4) = .ok [.subst9] ∧
    decode .header (.romIn 0b1010#4) = .ok [.subst10] ∧ decode .header (.romIn 0b1011#4) = .ok [.subst11] ∧
    decode .header (.romIn 0b1100#4) = .ok [.subst12] ∧ decode .header (.romIn 0b1101#4) = .ok [.subst13] ∧
    decode .header (.romIn 0b1110#4) = .ok [.subst14] ∧ decode .header (.romIn 0b1111#4) = .ok [.subst15] := by decide
/-- An operand that the port cannot carry is rejected by name. -/
theorem test_decode_rejects_too_long :
    decode .header (.cycle { cfgWe := true, cfgWdata := 2 ^ Config.lenW }) = .error (.headerLengthTooLarge (2 ^ Config.lenW)) :=
  decodeCycle_of_not_fits fun h => absurd (h rfl rfl) (Nat.lt_irrefl _)
/-- The bare words of the event rows, as opcode_table.json numbers their bits. -/
theorem test_table_words : decodeTableWord 8 0x8 = some .reset ∧ decodeTableWord 8 0x4 = some (.cfg 0) ∧
    decodeTableWord 8 0x2 = some .start ∧ decodeTableWord 8 0x1 = some (.xfer 0) ∧ decodeTableWord 8 0x0 = some .nop := by decide

/-! ### One operation each (95_test_vectors.md 2.1 to 2.4) -/

/-- V-O1. -/
theorem test_reset : regs (exec .reset (st 2 0)) = some (118, 118) := by decide
/-- V-O2 and V-O11. -/
theorem test_cfg : regs (exec (.cfg 2) (st 118 118)) = some (2, 118) ∧ regs (exec (.cfg 9) (st 7 3)) = some (9, 3) := by decide
/-- V-O3 and V-O10. -/
theorem test_start : regs (exec .start (st 2 118)) = some (2, 2) ∧ regs (exec .start (st 7 3)) = some (7, 7) := by decide
/-- V-O12: the largest header length. -/
theorem test_start_longest (s : State) (h : s.hdrLen = 2 ^ Config.lenW - 1) :
    regs (exec .start s) = some (2 ^ Config.lenW - 1, 2 ^ Config.lenW - 1) := by
  rw [exec_start]; simp [regs, h]
/-- V-O5. -/
theorem test_xfer_last_header_byte : seen (exec (.xfer 0x61) (st 2 1)) = some (2, 0, .byte 0x61) := by decide
/-- V-O6. -/
theorem test_xfer_first_payload_byte : seen (exec (.xfer 0x61) (st 2 0)) = some (2, 0, .byte 0x14) := by decide
/-- V-O7. -/
theorem test_nop : regs (exec .nop (st 2 0)) = some (2, 0) := by decide
/-- V-O13. -/
theorem test_xferPass : seen (exec (.xferPass 0xAB) (st 9 1)) = some (9, 0, .byte 0xAB) := by decide
/-- V-B3, in payload phase. -/
theorem test_xferRemap : seen (exec (.xferRemap 0x35) (st 2 0)) = some (2, 0, .byte 0x63) := by decide
/-- V-SP5 and V-SP6. -/
theorem test_split : seen (exec (.split 0x61) (st 2 2)) = some (2, 2, .indices 6 1) ∧
    seen (exec (.split 0x80) (st 2 2)) = some (2, 2, .indices 8 0) := by decide
/-- V-SP9 and V-SP10. -/
theorem test_pack : seen (exec (.pack 1 4) (st 2 2)) = some (2, 2, .byte 0x14) ∧
    seen (exec (.pack 15 0) (st 2 2)) = some (2, 2, .byte 0xF0) := by decide
/-- V-B1, V-B5, V-B7, V-B8. -/
theorem test_remapByte : seen (exec (.remapByte 0x61) (st 2 2)) = some (2, 2, .byte 0x14) ∧
    [0x60, 0x06, 0x16, 0x13, 0x45, 0x2A, 0x72, 0xFF].map remapByte = [0x10, 0x01, 0x41, 0x46, 0x53, 0x2A, 0x72, 0xFF] := by decide
/-- V-L1, the five listed rows. -/
theorem test_subst_listed : seen (exec .subst6 (st 2 2)) = some (2, 2, .index 1) ∧ seen (exec .subst1 (st 2 2)) = some (2, 2, .index 4) ∧
    seen (exec .subst5 (st 2 2)) = some (2, 2, .index 3) ∧ seen (exec .subst3 (st 2 2)) = some (2, 2, .index 6) ∧
    seen (exec .subst4 (st 2 2)) = some (2, 2, .index 5) := by decide
/-- V-L1, the fixed points nearest the listed rows and the ends of the range. -/
theorem test_subst_fixed : seen (exec .subst0 (st 2 2)) = some (2, 2, .index 0) ∧ seen (exec .subst2 (st 2 2)) = some (2, 2, .index 2) ∧
    seen (exec .subst7 (st 2 2)) = some (2, 2, .index 7) ∧ seen (exec .subst15 (st 2 2)) = some (2, 2, .index 15) := by decide
/-- V-F6 as a function. -/
theorem test_remap : remap [0x61, 0x16, 0x53] 1 = [0x61, 0x41, 0x36] := by decide

/-! ### One step (95_test_vectors.md 2.6) -/

/-- V-C1, cycle 7: a transfer of the old frame, a start with the old `HDRLEN`, and a new `HDRLEN`, in one cycle. -/
theorem test_cycle_with_three_events :
    regs (step (stWith 1 0 (.cycle { cfgWe := true, start := true, inValid := true, inData := 0x35, outReady := true }))) =
      some (0, 1) ∧
    bytes (step (stWith 1 0 (.cycle { cfgWe := true, start := true, inValid := true, inData := 0x35, outReady := true }))) =
      some [0x63] := by decide
/-- V-C1, cycle 0: the byte offered in a reset cycle is not taken. -/
theorem test_cycle_reset :
    regs (step (stWith 5 4 (.cycle { rst := true, inValid := true, inData := 0x61, outReady := true }))) = some (118, 118) ∧
    bytes (step (stWith 5 4 (.cycle { rst := true, inValid := true, inData := 0x61, outReady := true }))) = some [] := by decide
/-- V-C1, cycle 4: the outputs of a stalled cycle. -/
theorem test_outputs_stalled :
    outputsOf { inValid := true, inData := 0x61 } (st 1 0) = { inReady := false, outValid := true, outData := 0x14 } := by decide
/-- A bare table word placed after reset is run by the next step. -/
theorem test_placed_word : regs (step (State.reset.withFetchWord 8 0x4)) = some (0, 118) ∧
    regs (step (State.reset.withFetchWord 8 0x1)) = some (118, 117) := by decide

/-! ### Witnesses: what each statement with hypotheses assumes can be met -/

theorem longest_lt : 2 ^ Config.lenW - 1 < 2 ^ Config.lenW := Nat.sub_lt (Nat.two_pow_pos _) Nat.one_pos

theorem witness_DecodeOfEncode :
    ((Instr.cfg (2 ^ Config.lenW - 1)).wellFormed = true ∧ (Instr.cfg (2 ^ Config.lenW - 1)).selectableIn .header = true) ∧
    ((Instr.xferPass 0x61).wellFormed = true ∧ (Instr.xferPass 0x61).selectableIn .header = true) ∧
    ((Instr.xferRemap 0x61).wellFormed = true ∧ (Instr.xferRemap 0x61).selectableIn .payload = true) :=
  ⟨⟨test_cfg_longest_is_well_formed, rfl⟩, ⟨rfl, rfl⟩, rfl, rfl⟩

/-- The premise of the cycle statements holds at the largest operand, and with any wires when no `CFG` is performed. -/
theorem witness_operand_fits :
    Pins.operandFits { cfgWe := true, cfgWdata := 2 ^ Config.lenW - 1, start := true } ∧
    Pins.operandFits { rst := true, cfgWe := true, cfgWdata := 2 ^ Config.lenW } ∧
    Pins.operandFits { cfgWdata := 2 ^ Config.lenW, inValid := true, outReady := true } :=
  ⟨fun _ _ => longest_lt, fun h => absurd h (by decide), fun _ h => absurd h (by decide)⟩

/-- ControlWordSelectsEvents: each row of the table is selected by some cycle that meets the premise. -/
theorem witness_ControlWordSelectsEvents :
    (∀ c : BitVec 4, (pinsOfControlWord c).operandFits) ∧
    (pinsOfControlWord 8).controlWord = 8 ∧ (pinsOfControlWord 4).controlWord = 4 ∧ (pinsOfControlWord 2).controlWord = 2 ∧
    (pinsOfControlWord 1).controlWord = 1 ∧ (pinsOfControlWord 0).controlWord = 0 :=
  ⟨fun _ _ _ => Nat.two_pow_pos _, by decide, by decide, by decide, by decide, by decide⟩

theorem witness_EveryWordIsLegal :
    (∀ p, Drive.cycle { cfgWe := true, cfgWdata := 2 ^ Config.lenW - 1 } = .cycle p → p.cfgWdata < 2 ^ Config.lenW) ∧
    ∀ p, Drive.romIn 15 = .cycle p → p.cfgWdata < 2 ^ Config.lenW :=
  ⟨fun _ h => by cases h; exact longest_lt, fun _ h => nomatch h⟩

/-- StepRunsDecoded: a cycle of three events, and a word of one. -/
theorem witness_StepRunsDecoded :
    ((stWith 1 0 (.cycle (pinsOfControlWord 7))).pending = [.cycle (pinsOfControlWord 7)] ∧
      decode (stWith 1 0 (.cycle (pinsOfControlWord 7))).phase (.cycle (pinsOfControlWord 7)) = .ok [.xfer 0, .start, .cfg 0]) ∧
    (stWith 1 0 (.romIn 6)).pending = [.romIn 6] ∧ decode (stWith 1 0 (.romIn 6)).phase (.romIn 6) = .ok [.subst6] := by decide

theorem witness_PlacedWordRuns : driveOfTableWord 8 4 = some (.cycle (pinsOfControlWord 4)) ∧
    decode State.reset.phase (.cycle (pinsOfControlWord 4)) = .ok [.cfg 0] := by decide

theorem witness_PresentedTraceIsPerformed :
    (∀ i ∈ [Instr.reset, .cfg 2, .start, .xfer 0x61, .nop], i = .reset ∨ i = .start ∨ mayStandInFrame i = true) ∧
    ∃ t, runEvents [.reset, .cfg 2, .start, .xfer 0x61, .nop] State.reset = .next t :=
  ⟨by decide, _, rfl⟩

/-- ResetLoadsDefault: a pending cycle with `rst = 1` that also offers a byte. -/
theorem witness_ResetLoadsDefault :
    (stWith 5 4 (.cycle { rst := true, inValid := true, outReady := true })).pending =
      .cycle { rst := true, inValid := true, outReady := true } :: [] ∧
    Pins.rst { rst := true, inValid := true, outReady := true } = true := ⟨rfl, rfl⟩

theorem witness_CfgSetsHeaderLength : 0 < 2 ^ Config.lenW ∧ 2 ^ Config.lenW - 1 < 2 ^ Config.lenW ∧
    2 ^ Config.lenW ≤ 2 ^ Config.lenW ∧ (st 3 3).hdrLen = 3 ∧ 3 < 2 ^ Config.lenW :=
  ⟨Nat.two_pow_pos _, longest_lt, Nat.le_refl _, rfl, Config.lt_width (by decide)⟩

/-- XferIsPassOrRemap: both phases, and an operation that leads back from the payload phase. -/
theorem witness_XferIsPassOrRemap : (st 2 1).hRem ≠ 0 ∧ (st 2 0).hRem = 0 ∧
    ∃ t, exec .start (st 2 0) = .next t ∧ t.hRem ≠ 0 := ⟨by decide, rfl, _, rfl, by decide⟩

theorem witness_PassCopiesByte : (st 2 2).hRem ≠ 0 ∧ (st 2 1).hRem ≠ 0 ∧ (st 2 1).hRem = 1 := by decide
theorem witness_RemapTranslatesByte : (st 2 0).hRem = 0 := rfl
theorem witness_FormsRefuseOtherPhase : (st 2 0).hRem = 0 ∧ (st 2 2).hRem ≠ 0 := by decide
/-- NopIsInert: an idle state, and a state whose step moves a byte. -/
theorem witness_NopIsInert : (st 2 0).pending = [] ∧
    ∃ t, step (stWith 2 0 (.cycle { inValid := true, inData := 0x61, outReady := true })) = .next t :=
  ⟨rfl, next_of_isNext (by decide)⟩

theorem witness_SubstPowers : 7 ≤ (7 : Index).toNat ∧ 7 ≤ (15 : Index).toNat ∧ 0 < 1 ∧ 4 < 5 := by decide
theorem witness_SplitAndPackAreInverse :
    subst (highIndex 0x72) = highIndex 0x72 ∧ subst (lowIndex 0x72) = lowIndex 0x72 := by decide
theorem witness_LanesAreIndependent : highIndex 0x61 = highIndex 0x6F ∧ lowIndex 0x61 = lowIndex 0xF1 := by decide
theorem witness_RemapBytePermutation : remapByte 0x61 ≠ 0x61 ∧ remapByte 0x60 ≠ 0x60 := by decide

/-- PureFunctionsLeaveState: one instruction of each kind it names. -/
theorem witness_PureFunctionsLeaveState :
    (∃ b, Instr.split 0x61 = .split b) ∧ (∃ h l, Instr.pack 1 4 = .pack h l) ∧ (∃ b, Instr.remapByte 0x61 = .remapByte b) ∧
    Instr.subst15 ∈ [Instr.subst0, .subst15] := ⟨⟨_, rfl⟩, ⟨_, _, rfl⟩, ⟨_, rfl⟩, by decide⟩

theorem witness_CfgAndNopLeaveBytes :
    (∃ t, exec (.cfg 2) (st 7 3) = .next t) ∧ ∃ t, exec .nop (st 7 3) = .next t :=
  ⟨next_of_isNext (by decide), _, rfl⟩

/-- A state in the middle of a frame of header length 2, after an ended frame of no header. -/
def midFrame : State :=
  { State.reset with
    hdrLen := 2, hRem := 1, frame := { hdr := 2, inp := [0x61], out := [0x61] },
    past := [{ hdr := 0, inp := [0x61], out := [0x14] }],
    pending := [.cycle { inValid := true, inData := 0x35, outReady := true }] }

/-- FrameStartsLoseNoByte: with an empty current frame and with one that is not. -/
theorem witness_FrameStartsLoseNoByte :
    (∃ t, exec .start (st 7 3) = .next t) ∧ (∃ t, exec .reset midFrame = .next t) ∧
    ((st 7 3).frame.inp = [] ∧ (st 7 3).frame.out = []) ∧ ¬ (midFrame.frame.inp = [] ∧ midFrame.frame.out = []) :=
  ⟨⟨_, rfl⟩, ⟨_, rfl⟩, by decide, by decide⟩

/-- TransferStoresOneByte: the three transfers, the last two each in its phase. -/
theorem witness_TransferStoresOneByte :
    (∃ t, exec (.xfer 0x35) midFrame = .next t) ∧ (∃ t, exec (.xferPass 0x35) midFrame = .next t) ∧
    ∃ t, exec (.xferRemap 0x35) (st 2 0) = .next t :=
  ⟨next_of_isNext (by decide), next_of_isNext (by decide), next_of_isNext (by decide)⟩

theorem witness_OnlyCfgAndResetWriteHdrLen :
    (∃ t, exec .reset (st 2 0) = .next t ∧ t.hdrLen ≠ (st 2 0).hdrLen) ∧
    ∃ t, exec (.cfg 9) (st 2 0) = .next t ∧ t.hdrLen ≠ (st 2 0).hdrLen :=
  ⟨⟨_, rfl, by decide⟩, { st 2 0 with hdrLen := 9 }, by rw [exec_cfg, if_pos (Config.lt_width (by decide))], by decide⟩

theorem witness_WritersOfHRem :
    (∃ t, exec .start (st 2 0) = .next t ∧ t.hRem ≠ (st 2 0).hRem) ∧
    (∃ t, exec .reset (st 2 0) = .next t ∧ t.hRem ≠ (st 2 0).hRem) ∧
    ∃ t, exec (.xfer 0x61) (st 2 1) = .next t ∧ t.hRem ≠ (st 2 1).hRem :=
  ⟨⟨_, rfl, by decide⟩, ⟨_, rfl, by decide⟩, _, by rw [exec_xfer, if_pos (by decide)], by decide⟩

theorem witness_OffsetCountsTransfers : midFrame.hRem = midFrame.frame.hdr - midFrame.offset ∧
    (st 0 0).hRem = (st 0 0).frame.hdr - (st 0 0).offset ∧ ∃ t, exec (.xfer 0x35) midFrame = .next t :=
  ⟨by decide, by decide, next_of_isNext (by decide)⟩

/-- StepKeepsInvariant: the invariant holds in the middle of a frame, and that state steps. -/
theorem witness_StepKeepsInvariant : Inv midFrame ∧ ∃ t, step midFrame = .next t := by
  have hlt : ∀ {v : Nat}, v < 128 → v < 2 ^ Config.lenW := Config.lt_width
  refine ⟨⟨hlt (by decide), hlt (by decide), by decide, ⟨hlt (by decide), by decide⟩, fun f hf => ?_⟩,
    next_of_isNext (by decide)⟩
  simp only [midFrame, List.mem_singleton] at hf
  subst hf
  exact ⟨⟨hlt (by decide), by decide⟩, by decide⟩

theorem witness_StepKeepsMemoryForm : Memory.wf midFrame = true ∧ ∃ t, step midFrame = .next t :=
  ⟨by decide, next_of_isNext (by decide)⟩

/-- LengthPreservedHeaderIdentical: a current and an ended frame of a state with the invariant, and a header offset. -/
theorem witness_LengthPreservedHeaderIdentical : Inv midFrame ∧ midFrame.past ≠ [] ∧
    0 < min midFrame.frame.hdr midFrame.frame.inp.length := ⟨witness_StepKeepsInvariant.1, by decide, by decide⟩

/-- OnlyTooLongHeaderIsRefused: the refusal is reached, at the boundary. -/
theorem witness_OnlyTooLongHeaderIsRefused :
    step (stWith 2 2 (.cycle { cfgWe := true, cfgWdata := 2 ^ Config.lenW })) =
      .refused (.headerLengthTooLarge (2 ^ Config.lenW)) := by
  have h := test_decode_rejects_too_long
  unfold step stepHost
  simp only [stWith, runDrive]
  change (match decode .header _ with | .ok is => _ | .error e => _) = _
  rw [h]
  rfl

theorem witness_RemapElementwise : 0 < [(0x61 : Byte)].length ∧ 0 < 1 := by decide
theorem witness_RemapLaws : ∃ b ∈ ([0x42, 0x61] : List Byte).drop 1, remapByte b ≠ b := ⟨0x61, by decide, by decide⟩

theorem witness_FrameComputesRemap : 2 < 2 ^ Config.lenW ∧ 2 ^ Config.lenW - 1 < 2 ^ Config.lenW ∧
    (∀ i ∈ [Instr.xfer 0x61, .nop, .cfg 9, .xfer 0x35], mayStandInFrame i = true) :=
  ⟨Config.lt_width (by decide), longest_lt, by decide⟩

/-- DegenerateFrames: each clause has its header length and bytes. -/
theorem witness_DegenerateFrames : 0 < 2 ^ Config.lenW ∧ (3 < 2 ^ Config.lenW ∧ 3 = [(0x61 : Byte), 0x35, 0x72].length) ∧
    (5 < 2 ^ Config.lenW ∧ [(0x61 : Byte), 0x16, 0x53].length < 5) ∧ 7 < 2 ^ Config.lenW :=
  ⟨Nat.two_pow_pos _, ⟨Config.lt_width (by decide), rfl⟩, ⟨Config.lt_width (by decide), by decide⟩, Config.lt_width (by decide)⟩

/-- NoCarryOverBetweenFrames: two states of different histories with the same `HDRLEN`. -/
theorem witness_NoCarryOverBetweenFrames : midFrame.hdrLen = (st 2 0).hdrLen ∧ midFrame ≠ st 2 0 := by decide

theorem witness_CfgInsideFrameWaits : 3 < 2 ^ Config.lenW ∧
    (stWith 2 1 (.cycle { cfgWe := true, cfgWdata := 3, start := true })).pending =
      [.cycle { cfgWe := true, cfgWdata := 3, start := true }] := ⟨Config.lt_width (by decide), rfl⟩

theorem witness_CfgStartDefineRegisters : 2 ^ Config.lenW - 1 < 2 ^ Config.lenW ∧ 0 < 2 ^ Config.lenW :=
  ⟨longest_lt, Nat.two_pow_pos _⟩

/-- OutputsAreCombinational, FireTransfersOneByte, NextStateOfCycle and CycleIsItsEvents: a pending cycle whose operand fits, with
and without `rst`, with and without a transfer. -/
theorem witness_cycle_statements :
    ((stWith 1 0 (.cycle { cfgWe := true, cfgWdata := 2 ^ Config.lenW - 1, start := true, inValid := true, outReady := true })).pending =
      [.cycle { cfgWe := true, cfgWdata := 2 ^ Config.lenW - 1, start := true, inValid := true, outReady := true }] ∧
      Pins.operandFits { cfgWe := true, cfgWdata := 2 ^ Config.lenW - 1, start := true, inValid := true, outReady := true } ∧
      Pins.fire { cfgWe := true, cfgWdata := 2 ^ Config.lenW - 1, start := true, inValid := true, outReady := true } = true) ∧
    ((stWith 1 0 (.cycle { rst := true, inValid := true })).pending = [.cycle { rst := true, inValid := true }] ∧
      Pins.operandFits { rst := true, inValid := true } ∧ Pins.fire { rst := true, inValid := true } = false) :=
  ⟨⟨rfl, fun _ _ => longest_lt, rfl⟩, rfl, fun h => absurd h (by decide), rfl⟩

/-- WaitingCycleChangesNothing: a source with no byte, and a destination that takes none. -/
theorem witness_WaitingCycleChangesNothing :
    (stWith 1 0 (.cycle { outReady := true })).pending = [.cycle { outReady := true }] ∧
    (stWith 1 0 (.cycle { inValid := true })).pending = [.cycle { inValid := true }] := ⟨rfl, rfl⟩

theorem witness_HeldStartReloads :
    ({ st 2 0 with pending := [.cycle { start := true }, .cycle { start := true, inValid := true, outReady := true }] } :
      State).pending = .cycle { start := true } :: .cycle { start := true, inValid := true, outReady := true } :: [] ∧
    Pins.fire { start := true, inValid := true, outReady := true } = true := ⟨rfl, rfl⟩

end Sys2Proof.Tests
end

section
/-! SUPPORT. The offset of the current frame, and what a list of transfers does to a frame (spec/10_state.md R16, R18, R21). -/

namespace Sys2Proof.Machine

@[simp] theorem beginFrame_offset (h : Nat) (s : State) : (beginFrame h s).offset = 0 := rfl

@[simp] theorem returnValue_offset (r : Returned) (s : State) : (returnValue r s).offset = s.offset := rfl

@[simp] theorem passByte_offset (b : Byte) (s : State) : (passByte b s).offset = s.offset + 1 := by
  simp [State.offset]

@[simp] theorem sendRemapped_offset (b : Byte) (s : State) : (sendRemapped b s).offset = s.offset + 1 := by
  simp [State.offset]

/-- R70: each of the three transfers that completes is `XFER.PASS` in header phase and `XFER.REMAP` in payload phase. -/
theorem transfer_next_cases {i : Instr} {b : Byte} {s t : State}
    (hi : i = .xfer b ∨ i = .xferPass b ∨ i = .xferRemap b) (h : exec i s = .next t) :
    (s.hRem ≠ 0 ∧ t = passByte b s) ∨ (s.hRem = 0 ∧ t = sendRemapped b s) := by
  rcases hi with rfl | rfl | rfl
  · rw [exec_xfer] at h
    split at h <;> simp_all
  · rw [exec_xferPass] at h
    split at h <;> simp_all
  · rw [exec_xferRemap] at h
    split at h <;> simp_all

theorem transfer_advances_offset {i : Instr} {b : Byte} {s t : State}
    (hi : i = .xfer b ∨ i = .xferPass b ∨ i = .xferRemap b) (h : exec i s = .next t) : t.offset = s.offset + 1 := by
  rcases transfer_next_cases hi h with ⟨_, rfl⟩ | ⟨_, rfl⟩
  · exact passByte_offset b s
  · exact sendRemapped_offset b s

theorem frameStart_clears_offset {i : Instr} {s t : State} (hi : i = .start ∨ i = .reset) (h : exec i s = .next t) :
    t.offset = 0 ∧ t.hRem = t.frame.hdr := by
  rcases hi with rfl | rfl
  · rw [exec_start] at h
    cases h
    exact ⟨rfl, rfl⟩
  · rw [exec_reset] at h
    cases h
    exact ⟨rfl, rfl⟩

theorem cfg_or_nop_keeps_offset {i : Instr} {s t : State} (hi : (∃ v, i = .cfg v) ∨ i = .nop) (h : exec i s = .next t) :
    t.offset = s.offset := by
  rcases hi with ⟨v, rfl⟩ | rfl
  · rw [exec_cfg] at h
    split at h <;> cases h
    rfl
  · rw [exec_nop] at h
    cases h
    rfl

/-- R16: every instruction keeps `HREM = h -. k`. A transfer in header phase moves both sides by one; in payload phase the
difference is 0 already and stays there. -/
theorem exec_keeps_hRem_eq {i : Instr} {s t : State} (h : exec i s = .next t) (hs : s.hRem = s.frame.hdr - s.offset) :
    t.hRem = t.frame.hdr - t.offset := by
  rcases exec_next_cases h with
    rfl | ⟨_, rfl⟩ | ⟨_, _, _, rfl⟩ | ⟨_, rfl⟩ | ⟨_, rfl⟩ | ⟨_, _, _, rfl⟩ | ⟨_, _, hz, rfl⟩
  · exact hs
  · exact hs
  · exact hs
  · rfl
  · rfl
  · simp only [passByte_hRem, passByte_frame, passByte_offset]
    omega
  · simp only [sendRemapped_hRem, sendRemapped_frame, sendRemapped_offset]
    omega

theorem header_phase_iff_offset_lt {s : State} (hs : s.hRem = s.frame.hdr - s.offset) :
    s.phase = .header ↔ s.offset < s.frame.hdr := by
  rw [phase_eq_header_iff, hs]
  omega

/-- R78 (f): `remap` of a sequence in two parts; the second part has what the first leaves of the header. -/
theorem remap_append (s t : List Byte) (h : Nat) : remap (s ++ t) h = remap s h ++ remap t (h - s.length) := by
  rcases Nat.le_total h s.length with hle | hle
  · simp [remap, List.take_append_of_le_length hle, List.drop_append_of_le_length hle, Nat.sub_eq_zero_of_le hle]
  · simp [remap, List.take_append, List.drop_append, List.take_of_length_le hle, List.drop_eq_nil_of_le hle]

/-- `XFER(b)` in the terms of `remap`, the same in both phases. -/
theorem exec_xfer_remap (b : Byte) (s : State) : ∃ t, exec (.xfer b) s = .next t ∧
    t.frame = { s.frame with inp := s.frame.inp ++ [b], out := s.frame.out ++ remap [b] s.hRem } ∧
    t.hRem = s.hRem - 1 ∧ t.hdrLen = s.hdrLen := by
  rw [exec_xfer]
  by_cases hz : s.hRem = 0
  · exact ⟨sendRemapped b s, by simp [hz], by simp [hz, remap], by simp [hz], rfl⟩
  · have hone : remap [b] s.hRem = [b] := by
      obtain ⟨n, hn⟩ := Nat.exists_eq_succ_of_ne_zero hz
      rw [hn, remap_cons_header, remap_nil]
    exact ⟨passByte b s, by simp [hz], by simp [hone], rfl, rfl⟩

/-- Any list of transfers completes: `HREM` before it is the header still to come, and what it leaves in the frame and the
registers is a function of the frame, the registers and the bytes (R16, R76). -/
theorem runEvents_xfers (bs : List Byte) (s : State) : ∃ t, runEvents (xfers bs) s = .next t ∧
    t.frame = { s.frame with inp := s.frame.inp ++ bs, out := s.frame.out ++ remap bs s.hRem } ∧
    t.hRem = s.hRem - bs.length ∧ t.hdrLen = s.hdrLen := by
  induction bs generalizing s with
  | nil => exact ⟨s, rfl, by simp, rfl, rfl⟩
  | cons b bs ih =>
    obtain ⟨u, hu, huFrame, huRem, huLen⟩ := exec_xfer_remap b s
    obtain ⟨t, ht, htFrame, htRem, htLen⟩ := ih u
    have hcut : remap (b :: bs) s.hRem = remap [b] s.hRem ++ remap bs (s.hRem - 1) := remap_append [b] bs s.hRem
    refine ⟨t, (runEvents_cons_next hu).trans ht, ?_, ?_, htLen.trans huLen⟩
    · simp [htFrame, huFrame, huRem, hcut]
    · simp only [htRem, huRem, List.length_cons]
      omega

/-- A frame from its `START` on: a function of `HDRLEN` and of its bytes (R18, R76). -/
theorem runEvents_start_xfers (bs : List Byte) (s : State) : ∃ t, runEvents (.start :: xfers bs) s = .next t ∧
    t.frame = { hdr := s.hdrLen, inp := bs, out := remap bs s.hdrLen } ∧
    t.hRem = s.hdrLen - bs.length ∧ t.hdrLen = s.hdrLen := by
  rw [runEvents_cons_next (exec_start s)]
  simpa using runEvents_xfers bs (beginFrame s.hdrLen s)

/-- Settles O36. -/
theorem offsetCountsTransfers : Obligations.OffsetCountsTransfers := by
  refine ⟨fun i s t h => ⟨fun hi => frameStart_clears_offset hi h, ?_, fun hi => cfg_or_nop_keeps_offset hi h,
    exec_keeps_hRem_eq h⟩, fun _ => header_phase_iff_offset_lt⟩
  rintro ⟨b, hi⟩
  exact transfer_advances_offset hi h

/-- Settles O47: what the frame becomes does not mention the state before its `START`, but for `HDRLEN`. -/
theorem noCarryOverBetweenFrames : Obligations.NoCarryOverBetweenFrames := by
  intro s s' bs hLen
  obtain ⟨t, ht, htFrame, htRem, htLen⟩ := runEvents_start_xfers bs s
  obtain ⟨t', ht', htFrame', htRem', htLen'⟩ := runEvents_start_xfers bs s'
  exact ⟨t, t', ht, ht', by rw [htFrame, htFrame', hLen], by rw [htRem, htRem', hLen], by rw [htLen, htLen', hLen]⟩

/-- Settles O8. -/
theorem resetValues : Obligations.ResetValues :=
  ⟨rfl, rfl, phase_of_ne_zero (by decide), rfl⟩

end Sys2Proof.Machine
end

section
/-! SUPPORT. Every frame keeps its length and its header bytes (spec/20_memory.md R31). -/

namespace Sys2Proof.Machine

/-- R75: `remap` leaves every offset of the header as it is. -/
theorem remap_getElem?_header {s : List Byte} {h k : Nat} (hk : k < min h s.length) : (remap s h)[k]? = s[k]? := by
  obtain ⟨hHeader, _⟩ := Nat.lt_min.mp hk
  have hTaken : k < (s.take h).length := by simpa using hk
  rw [remap, List.getElem?_append_left hTaken, List.getElem?_take_of_lt hHeader]

/-- The bytes of a frame are its effective header and its payload. -/
theorem length_eq_header_add_payload (s : List Byte) (h : Nat) : s.length = min h s.length + (s.drop h).length := by
  rw [List.length_drop]
  omega

/-- The frames the invariant speaks of: the current one and the ended ones. -/
theorem frameRight_of_inv {s : State} (hs : Inv s) {f : Frame} (hf : f = s.frame ∨ f ∈ s.past) : FrameRight f := by
  rcases hf with rfl | hPast
  · exact hs.frame_right
  · exact (hs.past_right f hPast).1

/-- Settles O41: what came out of a frame is `remap` of what went in. -/
theorem lengthPreservedHeaderIdentical : Obligations.LengthPreservedHeaderIdentical := by
  intro s hs f hf
  have hRight : f.out = remap f.inp f.hdr := (frameRight_of_inv hs hf).out_eq
  rw [hRight, remap_length]
  exact ⟨rfl, fun k hk => remap_getElem?_header hk, length_eq_header_add_payload f.inp f.hdr⟩

end Sys2Proof.Machine
end

section
/-! SUPPORT. The rows a clock cycle's control word matches, and the events they select (spec/30_encoding.md R46). -/

namespace Sys2Proof

/-! ### The bits of the control word -/

/-- `C[3:0] = {r, w, s, f}` (R46), read back bit by bit. -/
theorem bits_of_wires : ∀ r w s f : Bool, ∀ v : BitVec 4,
    v = BitVec.ofBool r ++ BitVec.ofBool w ++ BitVec.ofBool s ++ BitVec.ofBool f →
    v[3] = r ∧ v[2] = w ∧ v[1] = s ∧ v[0] = f := by decide

@[simp] theorem Pins.controlWord_bits (p : Pins) : p.controlWord[3] = p.rst ∧ p.controlWord[2] = p.cfgWe ∧
    p.controlWord[1] = p.start ∧ p.controlWord[0] = p.fire :=
  bits_of_wires p.rst p.cfgWe p.start p.fire p.controlWord rfl

/-- The NOP row is selected when no strobe is up and no byte is transferred. -/
theorem controlWord_eq_zero_iff (p : Pins) :
    p.controlWord = 0 ↔ p.rst = false ∧ p.cfgWe = false ∧ p.start = false ∧ p.fire = false := by
  have hBits : ∀ v : BitVec 4, v = 0 ↔ v[3] = false ∧ v[2] = false ∧ v[1] = false ∧ v[0] = false := by decide
  simpa using hBits p.controlWord

/-! ### R46's rows: the bits each mask looks at, in every control word -/

theorem resetRow_matches_iff : ∀ v : BitVec 4, v &&& 0x8 = 0x8 ↔ v[3] = true := by decide

theorem cfgRow_matches_iff : ∀ v : BitVec 4, v &&& 0xC = 0x4 ↔ v[3] = false ∧ v[2] = true := by decide

theorem startRow_matches_iff : ∀ v : BitVec 4, v &&& 0xA = 0x2 ↔ v[3] = false ∧ v[1] = true := by decide

theorem xferRow_matches_iff : ∀ v : BitVec 4, v &&& 0x9 = 0x1 ↔ v[3] = false ∧ v[0] = true := by decide

theorem nopRow_matches_iff (v : BitVec 4) : v &&& 0xF = 0x0 ↔ v = 0 :=
  iff_of_eq (congrArg (· = 0) BitVec.and_allOnes)

/-- R86: what a cycle performs, read off the rows its control word matches. -/
theorem instrs_eq_matching_rows (p : Pins) : p.instrs =
    if p.controlWord &&& 0x8 = 0x8 then [.reset]
    else if p.controlWord = 0 then [.nop]
    else (if p.controlWord &&& 0x9 = 0x1 then [.xfer p.inData] else []) ++
      (if p.controlWord &&& 0xA = 0x2 then [.start] else []) ++
      (if p.controlWord &&& 0xC = 0x4 then [.cfg p.cfgWdata] else []) := by
  simp only [resetRow_matches_iff, xferRow_matches_iff, startRow_matches_iff, cfgRow_matches_iff,
    Pins.controlWord_bits]
  cases hr : p.rst with
  | true => exact instrs_of_rst hr
  | false =>
    rw [if_neg Bool.false_ne_true]
    by_cases hz : p.controlWord = 0
    · obtain ⟨_, hc, hs, hf⟩ := (controlWord_eq_zero_iff p).mp hz
      rw [if_pos hz, instrs_of_idle hr hf hs hc]
    · have hBusy : p.fire = true ∨ p.start = true ∨ p.cfgWe = true := by
        by_contra hIdle
        simp only [not_or, Bool.not_eq_true] at hIdle
        obtain ⟨hf, hs, hc⟩ := hIdle
        exact hz ((controlWord_eq_zero_iff p).mpr ⟨hr, hc, hs, hf⟩)
      simp only [if_neg hz, instrs_of_busy hr hBusy, true_and]

/-- Settles O3: each row of R46 by the bits its mask looks at, and the decoder by the rows that match. -/
theorem controlWordSelectsEvents : Obligations.ControlWordSelectsEvents := by
  intro p ph hFits
  have hDecode : decode ph (.cycle p) = .ok p.instrs := decodeCycle_of_fits hFits
  refine ⟨p.controlWord_bits, ?_, ?_, ?_, ?_, nopRow_matches_iff _,
    hDecode.trans (congrArg Except.ok (instrs_eq_matching_rows p))⟩
  · simpa using resetRow_matches_iff p.controlWord
  · simpa using cfgRow_matches_iff p.controlWord
  · simpa using startRow_matches_iff p.controlWord
  · simpa using xferRow_matches_iff p.controlWord

end Sys2Proof
end

section
/-! SUPPORT. The ROM image, as a table and as one constant (spec/30_encoding.md R44). -/

namespace Sys2Proof.Machine

/-- R44, R50: the table the ROM holds is the substitution, address by address. -/
theorem romRead_eq_subst : ∀ i : Index, romRead i = subst i := by decide

/-- R44: the table and the 64-bit constant are one image, entry `i` in bits `[4i+3:4i]`. -/
theorem romRead_eq_romConstant_nibble :
    ∀ i : Index, (romRead i).toNat = (romConstant >>> (4 * i.toNat)) &&& 0xF := by decide

/-- Settles O21. -/
theorem romImageIsSubst : Obligations.RomImageIsSubst :=
  ⟨rfl, fun i => ⟨romRead_eq_subst i, romRead_eq_romConstant_nibble i⟩⟩

end Sys2Proof.Machine
end

section
/-! SUPPORT. The powers of a function, and the substitution as a permutation of order 5 (spec/40_substitution_lut.md R50 to R58). -/

namespace Sys2Proof.Machine

/-! ### Applying a function n times -/

/-- The powers of R54 and R64 are Mathlib's iterates. -/
theorem applyTimes_eq_iterate {α : Type} (f : α → α) (n : Nat) (a : α) : applyTimes f n a = f^[n] a := by
  induction n generalizing a with
  | zero => rfl
  | succ n ih => exact ih (f a)

theorem applyTimes_succ_apply {α : Type} (f : α → α) (n : Nat) (a : α) :
    applyTimes f (n + 1) a = f (applyTimes f n a) := by
  simp only [applyTimes_eq_iterate, Function.iterate_succ_apply']

theorem applyTimes_of_fixed {α : Type} {f : α → α} {a : α} (hFixed : f a = a) (n : Nat) : applyTimes f n a = a := by
  rw [applyTimes_eq_iterate]
  exact Function.iterate_fixed hFixed n

/-- Five is prime, so what five applications bring back and one moves is moved by two, three and four as well. -/
theorem applyTimes_ne_of_order_five {α : Type} {f : α → α} {a : α} (hFive : applyTimes f 5 a = a) (hMoved : f a ≠ a)
    {n : Nat} (hPos : 0 < n) (hLt : n < 5) : applyTimes f n a ≠ a := by
  rw [applyTimes_eq_iterate] at hFive ⊢
  intro hReturns
  have hCoprime : Nat.gcd 5 n = 1 := Nat.coprime_of_lt_prime hPos.ne' hLt Nat.prime_five
  have hOne : Function.IsPeriodicPt f (Nat.gcd 5 n) a := Function.IsPeriodicPt.gcd hFive hReturns
  rw [hCoprime] at hOne
  exact hMoved hOne

/-! ### The substitution -/

/-- R53: the five indices `SUBST` changes. -/
theorem subst_ne_iff : ∀ i : Index, subst i ≠ i ↔ i ∈ [1, 3, 4, 5, 6] := by decide

theorem subst_of_seven_le : ∀ i : Index, 7 ≤ i.toNat → subst i = i := by decide

/-- R54: round the cycle once, and on every fixed point, `SUBST^5` is the identity. -/
theorem applyTimes_five_subst : ∀ i : Index, applyTimes subst 5 i = i := by decide

theorem applyTimes_four_subst_leftInverse : Function.LeftInverse (applyTimes subst 4) subst := applyTimes_five_subst

theorem applyTimes_four_subst_rightInverse : Function.RightInverse (applyTimes subst 4) subst := fun i =>
  (applyTimes_succ_apply subst 4 i).symm.trans (applyTimes_five_subst i)

theorem subst_bijective : Function.Bijective subst :=
  ⟨applyTimes_four_subst_leftInverse.injective, applyTimes_four_subst_rightInverse.surjective⟩

/-- Settles O20: each row answers the index looked up, and the value of the lookup is read off the table. -/
theorem substRowsReturnEntries : Obligations.SubstRowsReturnEntries :=
  ⟨by decide, fun s => ⟨exec_subst0 s, exec_subst1 s, exec_subst2 s, exec_subst3 s, exec_subst4 s, exec_subst5 s,
    exec_subst6 s, exec_subst7 s, exec_subst8 s, exec_subst9 s, exec_subst10 s, exec_subst11 s, exec_subst12 s,
    exec_subst13 s, exec_subst14 s, exec_subst15 s⟩⟩

/-- Settles O22: a bijection because its fourth power undoes it. -/
theorem substIsOneFiveCycle : Obligations.SubstIsOneFiveCycle :=
  ⟨subst_bijective, by decide, by decide, by decide, by decide, by decide, subst_ne_iff⟩

/-- Settles O23: no power below the fifth is the identity, as 6 shows for each of them. -/
theorem substPowers : Obligations.SubstPowers := by
  refine ⟨by decide, by decide, by decide, by decide, ?fixed, applyTimes_five_subst, ?order⟩
  case fixed =>
    intro i n hi
    exact applyTimes_of_fixed (subst_of_seven_le i hi) n
  case order =>
    intro n hPos hLt
    exact ⟨6, applyTimes_ne_of_order_five (applyTimes_five_subst 6) (by decide) hPos hLt⟩

/-- Settles O24: both compositions are `SUBST^5`. -/
theorem substInverseIsFourthPower : Obligations.SubstInverseIsFourthPower :=
  ⟨fun i => ⟨applyTimes_four_subst_rightInverse i, applyTimes_four_subst_leftInverse i⟩, by decide⟩

/-- Settles O25: a second lookup moves what the first moved, because `SUBST` is injective, and does not bring it back, because
the order is 5. -/
theorem substNotIdempotentNotSelfInverse : Obligations.SubstNotIdempotentNotSelfInverse := by
  refine ⟨fun i hi => ?_, by decide, by decide⟩
  have hMoved : subst i ≠ i := (subst_ne_iff i).mpr hi
  exact ⟨subst_bijective.injective.ne hMoved,
    applyTimes_ne_of_order_five (n := 2) (applyTimes_five_subst i) hMoved (by decide) (by decide)⟩

/-! ### The sequential variant, which the block does not compute -/

/-- R58: 6 becomes 1, then 4, then 5, as 1 and 4 do. -/
theorem sequentialSubst_not_injective : ¬ Function.Injective sequentialSubst := by
  intro hInjective
  have hSame : sequentialSubst 1 = sequentialSubst 4 := by decide
  exact absurd (hInjective hSame) (by decide)

theorem sequentialSubst_ne_subst_iff : ∀ i : Index, sequentialSubst i ≠ subst i ↔ i ∈ [1, 5, 6] := by decide

/-- Settles O26. -/
theorem sequentialVariantDiffers : Obligations.SequentialVariantDiffers :=
  ⟨by decide, sequentialSubst_ne_subst_iff, sequentialSubst_not_injective, by decide, by decide⟩

end Sys2Proof.Machine
end

section
/-! SUPPORT. The two lanes of a byte: splitting, repacking, and `REMAPBYTE` as `SUBST` on each lane
(spec/41_split_repack.md R59 to R64). -/

namespace Sys2Proof.Machine

/-! ### The model's shifts and masks as slices -/

/-- The mask `0xF` takes nothing from the low four bits. -/
theorem setWidth_four_and_mask (b : Byte) : (b &&& 0xF#8).setWidth 4 = b.setWidth 4 := by
  have hMask : (0xF#8).setWidth 4 = BitVec.allOnes 4 := by decide
  rw [BitVec.setWidth_and, hMask, BitVec.and_allOnes]

theorem highIndex_eq_extractLsb' (b : Byte) : highIndex b = b.extractLsb' 4 4 := by
  rw [highIndex, setWidth_four_and_mask, BitVec.setWidth_ushiftRight_eq_extractLsb]

theorem lowIndex_eq_extractLsb' (b : Byte) : lowIndex b = b.extractLsb' 0 4 := by
  rw [lowIndex, setWidth_four_and_mask, BitVec.setWidth_eq_extractLsb' (by decide)]

theorem packIndices_eq_append (h l : Index) : packIndices h l = h ++ l := by
  rw [packIndices, ← BitVec.setWidth_append_eq_shiftLeft_setWidth_or]
  exact BitVec.setWidth_eq _

/-- A mask of `w` ones keeps what a slice of `w` bits keeps. -/
theorem extractLsb'_toNat_eq_and (b : Byte) (start : Nat) : (b.extractLsb' start 4).toNat = (b.toNat >>> start) &&& 0xF := by
  rw [BitVec.extractLsb'_toNat, ← Nat.and_two_pow_sub_one_eq_mod]

/-- Settles O17. -/
theorem splitReturnsIndices : Obligations.SplitReturnsIndices := by
  intro s b
  refine ⟨?_, extractLsb'_toNat_eq_and b 4, extractLsb'_toNat_eq_and b 0⟩
  rw [exec_split, highIndex_eq_extractLsb', lowIndex_eq_extractLsb', returnValue]

/-- Settles O18. -/
theorem packReturnsByte : Obligations.PackReturnsByte := by
  intro s h l
  refine ⟨?_, BitVec.toNat_append h l⟩
  rw [exec_pack, packIndices_eq_append, returnValue]

theorem remapByte_eq_append (b : Byte) :
    remapByte b = subst (b.extractLsb' 4 4) ++ subst (b.extractLsb' 0 4) := by
  rw [remapByte, packIndices_eq_append, highIndex_eq_extractLsb', lowIndex_eq_extractLsb']

/-- Settles O19. -/
theorem remapByteReturns : Obligations.RemapByteReturns := by
  intro s b
  refine ⟨?_, remapByte_eq_append b⟩
  rw [exec_remapByte, remapByte_eq_append, returnValue]

/-! ### A byte is its two lanes -/

/-- R61: the two slices, put together again, are the byte. -/
theorem packIndices_highIndex_lowIndex (b : Byte) : packIndices (highIndex b) (lowIndex b) = b := by
  rw [packIndices_eq_append, highIndex_eq_extractLsb', lowIndex_eq_extractLsb',
    BitVec.extractLsb'_append_extractLsb'_eq_extractLsb' (start₁ := 0) (len₁ := 4) rfl]
  exact BitVec.extractLsb'_eq_self

theorem eq_iff_lanes_eq (b c : Byte) : b = c ↔ highIndex b = highIndex c ∧ lowIndex b = lowIndex c := by
  refine ⟨fun h => h ▸ ⟨rfl, rfl⟩, fun ⟨hHigh, hLow⟩ => ?_⟩
  rw [← packIndices_highIndex_lowIndex b, hHigh, hLow, packIndices_highIndex_lowIndex]

/-! ### `REMAPBYTE` lane by lane -/

theorem highIndex_remapByte (b : Byte) : highIndex (remapByte b) = subst (highIndex b) := highIndex_packIndices _ _

theorem lowIndex_remapByte (b : Byte) : lowIndex (remapByte b) = subst (lowIndex b) := lowIndex_packIndices _ _

/-- R61, R64: the fixed bytes are those whose two indices are fixed. -/
theorem remapByte_eq_self_iff (b : Byte) :
    remapByte b = b ↔ subst (highIndex b) = highIndex b ∧ subst (lowIndex b) = lowIndex b := by
  rw [eq_iff_lanes_eq, highIndex_remapByte, lowIndex_remapByte]

/-- Settles O27. -/
theorem splitAndPackAreInverse : Obligations.SplitAndPackAreInverse :=
  ⟨packIndices_highIndex_lowIndex, fun h l => ⟨highIndex_packIndices h l, lowIndex_packIndices h l⟩,
    fun b hHigh hLow => (remapByte_eq_self_iff b).mpr ⟨hHigh, hLow⟩⟩

/-- Settles O28. -/
theorem lanesAreIndependent : Obligations.LanesAreIndependent := by
  refine ⟨fun b => ⟨highIndex_remapByte b, lowIndex_remapByte b⟩, fun b c hHigh => ?_, fun b c hLow => ?_⟩
  · rw [highIndex_remapByte, highIndex_remapByte, hHigh]
  · rw [lowIndex_remapByte, lowIndex_remapByte, hLow]

/-! ### `REMAPBYTE` as a permutation of order 5 -/

/-- If `f` acts on a lane as `g` does, its powers act on that lane as the powers of `g` do. -/
theorem applyTimes_semiconj {α β : Type} {lane : α → β} {f : α → α} {g : β → β} (h : Function.Semiconj lane f g)
    (n : Nat) (a : α) : lane (applyTimes f n a) = applyTimes g n (lane a) := by
  rw [applyTimes_eq_iterate, applyTimes_eq_iterate]
  exact h.iterate_right n a

/-- R64: five passes bring each lane back. -/
theorem applyTimes_five_remapByte (b : Byte) : applyTimes remapByte 5 b = b := by
  rw [eq_iff_lanes_eq, applyTimes_semiconj highIndex_remapByte, applyTimes_semiconj lowIndex_remapByte]
  exact ⟨applyTimes_five_subst _, applyTimes_five_subst _⟩

theorem remapByte_packIndices (h l : Index) : remapByte (packIndices h l) = packIndices (subst h) (subst l) := by
  rw [remapByte, highIndex_packIndices, lowIndex_packIndices]

/-- R64: the stated inverse undoes each lookup in its lane. -/
theorem remapByte_of_inverse_lanes (b : Byte) :
    remapByte (packIndices (applyTimes subst 4 (highIndex b)) (applyTimes subst 4 (lowIndex b))) = b := by
  rw [remapByte_packIndices, applyTimes_four_subst_rightInverse, applyTimes_four_subst_rightInverse,
    packIndices_highIndex_lowIndex]

theorem remapByte_bijective : Function.Bijective remapByte :=
  have hLeft : Function.LeftInverse (applyTimes remapByte 4) remapByte := applyTimes_five_remapByte
  ⟨hLeft.injective, fun b => ⟨_, remapByte_of_inverse_lanes b⟩⟩

/-- The indices `SUBST` leaves alone. -/
def fixedIndices : Finset Index := Finset.univ.filter fun i => subst i = i

theorem mem_fixedIndices (i : Index) : i ∈ fixedIndices ↔ subst i = i := by simp [fixedIndices]

theorem card_fixedIndices : fixedIndices.card = 11 := by decide

theorem length_filter_range_eq_card (p : Nat → Bool) (n : Nat) :
    ((List.range n).filter p).length = ((Finset.range n).filter fun k => p k).card := by
  rw [← List.countP_eq_length_filter, ← Nat.count_eq_card_filter_range, Nat.count]
  simp

/-- R64: a fixed byte is a pair of fixed indices, so there are `11 * 11` of them. -/
theorem remapByte_fixes_121 :
    ((List.range 256).filter fun n => remapByte (BitVec.ofNat 8 n) == BitVec.ofNat 8 n).length = 121 := by
  have hPairs : (fixedIndices ×ˢ fixedIndices).card = 121 := by rw [Finset.card_product, card_fixedIndices]
  rw [length_filter_range_eq_card, ← hPairs]
  refine Finset.card_nbij' (fun n => (highIndex (BitVec.ofNat 8 n), lowIndex (BitVec.ofNat 8 n)))
    (fun p => (packIndices p.1 p.2).toNat) ?split ?pack ?packSplit ?splitPack
  case split =>
    intro n hn
    simpa [mem_fixedIndices, remapByte_eq_self_iff] using (Finset.mem_filter.mp hn).2
  case pack =>
    intro p hp
    simpa [mem_fixedIndices, remapByte_eq_self_iff, highIndex_packIndices, lowIndex_packIndices,
      (packIndices p.1 p.2).isLt] using hp
  case packSplit =>
    intro n hn
    have hLt : n < 256 := Finset.mem_range.mp (Finset.mem_filter.mp hn).1
    simp [packIndices_highIndex_lowIndex, Nat.mod_eq_of_lt hLt]
  case splitPack =>
    intro p _
    simp [highIndex_packIndices, lowIndex_packIndices]

/-- Settles O29: order 5 lane by lane; a second pass moves what the first moved, because `REMAPBYTE` is injective, and does not
bring it back, because the order is 5. -/
theorem remapBytePermutation : Obligations.RemapBytePermutation := by
  refine ⟨⟨remapByte_bijective, remapByte_of_inverse_lanes⟩, remapByte_fixes_121, remapByte_eq_self_iff,
    applyTimes_five_remapByte, ?order, ?moved, by decide⟩
  case order =>
    intro n hPos hLt
    exact ⟨0x61, applyTimes_ne_of_order_five (applyTimes_five_remapByte 0x61) (by decide) hPos hLt⟩
  case moved =>
    intro b hMoved
    exact ⟨remapByte_bijective.injective.ne hMoved,
      applyTimes_ne_of_order_five (n := 2) (applyTimes_five_remapByte b) hMoved (by decide) (by decide)⟩

end Sys2Proof.Machine
end

section
/-! SUPPORT. What each event leaves of the state: the transfers, `CFG`, `START` and `NOP` (spec/42_stream_operations.md R68 to
R73). -/

namespace Sys2Proof.Machine

/-! ### The transfers -/

theorem passByte_eq (b : Byte) (s : State) : passByte b s =
    { s with hRem := s.hRem - 1, result := .byte b,
             frame := { s.frame with inp := s.frame.inp ++ [b], out := s.frame.out ++ [b] } } := rfl

theorem sendRemapped_eq (b : Byte) (s : State) : sendRemapped b s =
    { s with result := .byte (remapByte b),
             frame := { s.frame with inp := s.frame.inp ++ [b], out := s.frame.out ++ [remapByte b] } } := rfl

/-- R70: no transfer moves `HREM` away from 0, and nothing else but a frame start writes it. -/
theorem payload_left_only_by_frameStart {i : Instr} {s t : State} (h : exec i s = .next t) (hz : s.hRem = 0)
    (hne : t.hRem ≠ 0) : i = .start ∨ i = .reset := by
  rcases exec_next_cases h with
    rfl | ⟨_, rfl⟩ | ⟨_, _, _, rfl⟩ | ⟨hReset, _⟩ | ⟨hStart, _⟩ | ⟨_, _, hs, _⟩ | ⟨_, _, _, rfl⟩
  · exact absurd hz hne
  · exact absurd hz hne
  · exact absurd hz hne
  · exact .inr hReset
  · exact .inl hStart
  · exact absurd hz hs
  · exact absurd hz hne

/-- Settles O12: each branch of `XFER` is the form of its phase. -/
theorem xferIsPassOrRemap : Obligations.XferIsPassOrRemap := by
  refine fun s => ⟨fun b => exec_xfer b s, fun b hs => ?header, fun b hz => ?payload,
    fun _ _ h hz hne => payload_left_only_by_frameStart h hz hne⟩
  case header => rw [exec_xfer, exec_xferPass, if_pos hs, if_pos hs]
  case payload => rw [exec_xfer, exec_xferRemap, if_pos hz, if_neg (not_not.mpr hz)]

/-- Settles O13. -/
theorem passCopiesByte : Obligations.PassCopiesByte := by
  intro s b hs
  refine ⟨passByte b s, by rw [exec_xferPass, if_pos hs], passByte_eq b s, fun hOne => ?_⟩
  have hZero : (passByte b s).hRem = 0 := by rw [passByte_hRem, hOne]
  exact ⟨hZero, phase_of_eq_zero hZero⟩

/-- R77 (a): without a header every byte is payload. -/
theorem remap_zero (bs : List Byte) : remap bs 0 = bs.map remapByte := rfl

/-- Settles O14: a list of transfers only counts `HREM` down, so from 0 it stays there. -/
theorem remapTranslatesByte : Obligations.RemapTranslatesByte := by
  intro s b hz
  have hStays : (sendRemapped b s).hRem = 0 := hz
  refine ⟨sendRemapped b s, by rw [exec_xferRemap, if_pos hz], sendRemapped_eq b s, hStays, phase_of_eq_zero hStays,
    fun bs => ?_⟩
  obtain ⟨u, hu, huFrame, huRem, -⟩ := runEvents_xfers bs (sendRemapped b s)
  have huZero : u.hRem = 0 := by rw [huRem, hStays, Nat.zero_sub]
  exact ⟨u, hu, huZero, phase_of_eq_zero huZero, by rw [huFrame, hStays, remap_zero]⟩

/-! ### `CFG` and `START` -/

theorem exec_cfg_of_lt {v : Nat} (hv : v < 2 ^ Config.lenW) (s : State) :
    exec (.cfg v) s = .next { s with hdrLen := v } := by rw [exec_cfg, if_pos hv]

theorem exec_cfg_of_le {v : Nat} (hv : 2 ^ Config.lenW ≤ v) (s : State) :
    exec (.cfg v) s = .refused (.headerLengthTooLarge v) := by rw [exec_cfg, if_neg hv.not_gt]

/-- Settles O10. -/
theorem cfgSetsHeaderLength : Obligations.CfgSetsHeaderLength := by
  refine fun s v => ⟨fun hv => exec_cfg_of_lt hv s, fun hv => exec_cfg_of_le hv s, fun hv hSame => ?same,
    fun w hv hw => ?later⟩
  case same =>
    subst hSame
    exact exec_cfg_of_lt hv s
  case later =>
    rw [runEvents_cons_next (exec_cfg_of_lt hv s), runEvents_single, runEvents_single, exec_cfg_of_lt hw, exec_cfg_of_lt hw]

/-- R69, R74: a frame abandoned before its first byte leaves nothing behind. -/
theorem beginFrame_beginFrame (h h' : Nat) (s : State) : beginFrame h' (beginFrame h s) = beginFrame h' s := by
  have hPast : framesWhenClosed (beginFrame h s) = framesWhenClosed s := if_pos ⟨rfl, rfl⟩
  rw [beginFrame, hPast]
  rfl

/-- Settles O11. -/
theorem startBeginsFrame : Obligations.StartBeginsFrame := by
  refine fun s => ⟨beginFrame s.hdrLen s, exec_start s, rfl, rfl, rfl, rfl, phase_eq_header_iff _, phase_eq_payload_iff _, ?_⟩
  rw [runEvents_cons_next (exec_start s), runEvents_single, exec_start, beginFrame_hdrLen, beginFrame_beginFrame]

/-! ### `NOP`, and the bytes a step moves -/

/-- Traces that do the same from every state do the same after any common beginning. -/
theorem runEvents_append_congr {ys zs : List Instr} (h : ∀ s, runEvents ys s = runEvents zs s) (xs : List Instr) (s : State) :
    runEvents (xs ++ ys) s = runEvents (xs ++ zs) s := by
  induction xs generalizing s with
  | nil => exact h s
  | cons i xs ih =>
    simp only [List.cons_append, runEvents]
    cases exec i s with
    | next t => exact ih t
    | fault r => rfl
    | refused r => rfl

theorem runEvents_nop_cons (is : List Instr) (s : State) : runEvents (.nop :: is) s = runEvents is s :=
  runEvents_cons_next (exec_nop s)

theorem step_of_idle {s : State} (h : s.pending = []) : step s = .next s := by
  unfold step stepHost
  rw [h]
  exact exec_nop s

/-- From `s` to `t` the block took some bytes in and delivered as many. -/
def MovesBytes (s t : State) : Prop :=
  ∃ taken given : List Byte,
    t.consumed = s.consumed ++ taken ∧ t.delivered = s.delivered ++ given ∧ given.length = taken.length

theorem MovesBytes.of_streams_eq {s t : State} (hIn : t.consumed = s.consumed) (hOut : t.delivered = s.delivered) :
    MovesBytes s t := ⟨[], [], by simpa using hIn, by simpa using hOut, rfl⟩

theorem MovesBytes.trans {s t u : State} (h : MovesBytes s t) (h' : MovesBytes t u) : MovesBytes s u := by
  obtain ⟨taken, given, hIn, hOut, hLen⟩ := h
  obtain ⟨taken', given', hIn', hOut', hLen'⟩ := h'
  exact ⟨taken ++ taken', given ++ given', by rw [hIn', hIn, List.append_assoc], by rw [hOut', hOut, List.append_assoc],
    by rw [List.length_append, List.length_append, hLen, hLen']⟩

/-- R73: only a transfer moves a byte, and it moves one in and one out. -/
theorem exec_movesBytes {i : Instr} {s t : State} (h : exec i s = .next t) : MovesBytes s t := by
  rcases exec_next_cases h with
    rfl | ⟨_, rfl⟩ | ⟨_, _, _, rfl⟩ | ⟨_, rfl⟩ | ⟨_, rfl⟩ | ⟨b, _, _, rfl⟩ | ⟨b, _, _, rfl⟩
  · exact .of_streams_eq rfl rfl
  · exact .of_streams_eq rfl rfl
  · exact .of_streams_eq rfl rfl
  · exact .of_streams_eq (beginFrame_consumed _ _) (beginFrame_delivered _ _)
  · exact .of_streams_eq (beginFrame_consumed _ _) (beginFrame_delivered _ _)
  · exact ⟨[b], [b], passByte_consumed b s, passByte_delivered b s, rfl⟩
  · exact ⟨[b], [remapByte b], sendRemapped_consumed b s, sendRemapped_delivered b s, rfl⟩

theorem showOutputs_movesBytes (d : Drive) (s : State) : MovesBytes s (showOutputs d s) :=
  .of_streams_eq (by simp [State.consumed]) (by simp [State.delivered])

theorem step_movesBytes {s t : State} (h : step s = .next t) : MovesBytes s t := by
  rcases step_next_cases h with ⟨_, rfl⟩ | ⟨d, rest, is, _, _, hRun⟩
  · exact .of_streams_eq rfl rfl
  · exact runEvents_keeps (P := MovesBytes s) (fun _ _ _ hExec hMoved => hMoved.trans (exec_movesBytes hExec)) hRun
      (showOutputs_movesBytes d { s with pending := rest })

/-- Settles O16. -/
theorem nopIsInert : Obligations.NopIsInert := fun s =>
  ⟨exec_nop s, fun xs ys => runEvents_append_congr (runEvents_nop_cons ys) xs s, step_of_idle, fun _ => step_movesBytes⟩

end Sys2Proof.Machine
end

section
/-! SUPPORT. The laws of `remap` (spec/42_stream_operations.md R75, R78). -/

namespace Sys2Proof.Machine

/-- R75: `remap` translates every offset from the end of the header on. -/
theorem remap_getElem?_payload {s : List Byte} {h k : Nat} (hk : k < s.length) (hPayload : h ≤ k) :
    (remap s h)[k]? = (s[k]?).map remapByte := by
  have hTaken : (s.take h).length = h := List.length_take_of_le (hPayload.trans hk.le)
  rw [remap, List.getElem?_append_right (hTaken.trans_le hPayload), hTaken, List.getElem?_map, List.getElem?_drop,
    Nat.add_sub_cancel' hPayload]

/-- R75: the effective header length `min(h, n)` in place of `h`. -/
theorem remap_eq_effective_header (s : List Byte) (h : Nat) :
    remap s h = s.take (min h s.length) ++ (s.drop (min h s.length)).map remapByte := by
  rw [← List.take_eq_take_min, ← List.drop_eq_drop_min, remap]

/-- Settles O43. -/
theorem remapElementwise : Obligations.RemapElementwise := by
  refine fun s h => ⟨remap_eq_effective_header s h, remap_length s h, fun k hk => ?_⟩
  split
  case isTrue hHeader => exact remap_getElem?_header (lt_min hHeader hk)
  case isFalse hPayload => exact remap_getElem?_payload hk (not_lt.mp hPayload)

theorem remap_take (s : List Byte) (h : Nat) : (remap s h).take h = s.take h := by
  rcases Nat.le_total h s.length with hle | hle
  · exact List.take_left' (List.length_take_of_le hle)
  · simp [remap, List.drop_eq_nil_of_le hle, List.take_take]

theorem remap_drop (s : List Byte) (h : Nat) : (remap s h).drop h = (s.drop h).map remapByte := by
  rcases Nat.le_total h s.length with hle | hle
  · exact List.drop_left' (List.length_take_of_le hle)
  · simp [List.drop_eq_nil_of_le, hle]

/-- R78: `n` passes keep the header and translate each payload byte `n` times. -/
theorem applyTimes_remap (h n : Nat) (s : List Byte) :
    applyTimes (fun u => remap u h) n s = s.take h ++ (s.drop h).map (applyTimes remapByte n) := by
  induction n generalizing s with
  | zero =>
    have hId : applyTimes remapByte 0 = id := rfl
    rw [hId, List.map_id, List.take_append_drop]
    rfl
  | succ n ih =>
    calc applyTimes (fun u => remap u h) (n + 1) s
        = applyTimes (fun u => remap u h) n (remap s h) := rfl
      _ = s.take h ++ ((s.drop h).map remapByte).map (applyTimes remapByte n) := by rw [ih, remap_take, remap_drop]
      _ = s.take h ++ (s.drop h).map (applyTimes remapByte (n + 1)) := by rw [List.map_map]; rfl

/-- R78 (e): `REMAPBYTE` has order 5. -/
theorem applyTimes_five_remap (h : Nat) (s : List Byte) : applyTimes (fun u => remap u h) 5 s = s := by
  have hFive : applyTimes remapByte 5 = id := funext applyTimes_five_remapByte
  rw [applyTimes_remap, hFive, List.map_id, List.take_append_drop]

theorem remap_injective (h : Nat) : Function.Injective fun s => remap s h :=
  have hLeft : Function.LeftInverse (applyTimes (fun u => remap u h) 4) fun s => remap s h := applyTimes_five_remap h
  hLeft.injective

/-- A payload byte that `REMAPBYTE` changes is changed by the pass. -/
theorem remap_ne_of_changed {s : List Byte} {h : Nat} (hChanged : ∃ b ∈ s.drop h, remapByte b ≠ b) : remap s h ≠ s := by
  obtain ⟨b, hb, hMoved⟩ := hChanged
  intro hSame
  have hPayload : (s.drop h).map remapByte = (s.drop h).map id := by rw [← remap_drop, hSame, List.map_id]
  exact hMoved (List.map_inj_left.mp hPayload b hb)

/-- Settles O44: a second pass moves what the first moved, because a pass is injective, and does not bring it back, because five
passes do. -/
theorem remapLaws : Obligations.RemapLaws := by
  refine ⟨fun s h => ⟨remap_length s h, remap_take s h, fun hChanged => ?_, applyTimes_five_remap h s,
    fun t => remap_append s t h⟩, by decide, by decide⟩
  have hMoved : remap s h ≠ s := remap_ne_of_changed hChanged
  exact ⟨applyTimes_ne_of_order_five (n := 2) (applyTimes_five_remap h s) hMoved (by decide) (by decide),
    (remap_injective h).ne hMoved⟩

end Sys2Proof.Machine
end

section
/-! SUPPORT. A frame computes `remap`, whatever `CFG`s and `NOP`s stand between its transfers (spec/42_stream_operations.md R74,
R76). -/

namespace Sys2Proof.Machine

/-- What the events `xs` inside a frame make of it (R74, R76): its bytes are the operands of the transfers, `HREM` before them is
the header still to come, and `HDRLEN` is the last value written. -/
structure FrameContinues (xs : List Instr) (s t : State) : Prop where
  frame_eq : t.frame = { s.frame with
    inp := s.frame.inp ++ xs.filterMap xferOperand
    out := s.frame.out ++ remap (xs.filterMap xferOperand) s.hRem }
  past_eq : t.past = s.past
  hRem_eq : t.hRem = s.hRem - (xs.filterMap xferOperand).length
  hdrLen_eq : t.hdrLen = (xs.filterMap cfgOperand).getLastD s.hdrLen

theorem FrameContinues.nil (s : State) : FrameContinues [] s s where
  frame_eq := by simp
  past_eq := rfl
  hRem_eq := rfl
  hdrLen_eq := rfl

theorem getLastD_append {α : Type} (xs ys : List α) (d : α) : (xs ++ ys).getLastD d = ys.getLastD (xs.getLastD d) := by
  simp only [List.getLastD_eq_getLast?, List.getLast?_append, Option.getD_or]

theorem FrameContinues.append {xs ys : List Instr} {s t u : State} (h : FrameContinues xs s t) (h' : FrameContinues ys t u) :
    FrameContinues (xs ++ ys) s u where
  frame_eq := by simp [h'.frame_eq, h.frame_eq, h.hRem_eq, remap_append]
  past_eq := h'.past_eq.trans h.past_eq
  hRem_eq := by rw [h'.hRem_eq, h.hRem_eq, List.filterMap_append, List.length_append, Nat.sub_sub]
  hdrLen_eq := by rw [h'.hdrLen_eq, h.hdrLen_eq, List.filterMap_append, getLastD_append]

/-- R74: an event that may stand in a frame completes and continues it. -/
theorem exec_inFrame {i : Instr} (hi : mayStandInFrame i = true) (s : State) :
    ∃ t, exec i s = .next t ∧ FrameContinues [i] s t := by
  cases i with
  | xfer b =>
    obtain ⟨t, ht, hFrame, hRem, hLen⟩ := exec_xfer_remap b s
    have hPast : t.past = s.past := by
      rcases transfer_next_cases (.inl rfl) ht with ⟨_, rfl⟩ | ⟨_, rfl⟩ <;> rfl
    exact ⟨t, ht, hFrame, hPast, hRem, hLen⟩
  | nop => exact ⟨s, exec_nop s, by simp [List.filterMap_cons, xferOperand], rfl, rfl, rfl⟩
  | cfg v =>
    have hv : v < 2 ^ Config.lenW := (Config.fitsLenW_iff v).mp hi
    exact ⟨{ s with hdrLen := v }, exec_cfg_of_lt hv s, by simp [List.filterMap_cons, xferOperand], rfl, rfl, rfl⟩
  | _ => cases hi

theorem runEvents_inFrame {xs : List Instr} (hxs : ∀ i ∈ xs, mayStandInFrame i = true) (s : State) :
    ∃ t, runEvents xs s = .next t ∧ FrameContinues xs s t := by
  induction xs generalizing s with
  | nil => exact ⟨s, rfl, .nil s⟩
  | cons i xs ih =>
    obtain ⟨hHead, hTail⟩ := List.forall_mem_cons.mp hxs
    obtain ⟨u, hu, hFirst⟩ := exec_inFrame hHead s
    obtain ⟨t, ht, hRest⟩ := ih hTail u
    exact ⟨t, (runEvents_cons_next hu).trans ht, hFirst.append hRest⟩

/-- R76: the frame begun with header length `h`, after the events inside it. -/
theorem runEvents_beginFrame {xs : List Instr} (hxs : ∀ i ∈ xs, mayStandInFrame i = true) (h : Nat) (s : State) :
    ∃ t, runEvents xs (beginFrame h s) = .next t ∧
      t.frame.inp = xs.filterMap xferOperand ∧ t.frame.out = remap (xs.filterMap xferOperand) h ∧
      t.delivered = s.delivered ++ remap (xs.filterMap xferOperand) h ∧
      t.hRem = h - (xs.filterMap xferOperand).length ∧ t.hdrLen = (xs.filterMap cfgOperand).getLastD s.hdrLen := by
  obtain ⟨t, ht, hFrame, hPast, hRem, hLen⟩ := runEvents_inFrame hxs (beginFrame h s)
  have hOut : t.frame.out = remap (xs.filterMap xferOperand) h := by simp [hFrame]
  have hDelivered : t.delivered = s.delivered ++ remap (xs.filterMap xferOperand) h := by
    rw [State.delivered, hPast, hOut, beginFrame_past, framesWhenClosed_out]
  exact ⟨t, ht, by simp [hFrame], hOut, hDelivered, hRem, hLen⟩

theorem runEvents_replicate_nop_append (m : Nat) (is : List Instr) (s : State) :
    runEvents (List.replicate m .nop ++ is) s = runEvents is s := by
  induction m with
  | zero => rfl
  | succ m ih => rw [List.replicate_succ, List.cons_append, runEvents_nop_cons, ih]

/-- R100: `RESET` begins a frame with header length 118 and leaves 118 in `HDRLEN`. -/
theorem runEvents_reset_cons (is : List Instr) (s : State) :
    runEvents (.reset :: is) s = runEvents is (beginFrame 118 { s with hdrLen := 118 }) :=
  runEvents_cons_next (exec_reset s)

/-- Settles O45. -/
theorem frameComputesRemap : Obligations.FrameComputesRemap := by
  refine ⟨fun s h m n xs hh hxs => ?started, fun s h bs hh => ?frame, fun s m xs hxs => ?afterReset, fun s bs => ?frameDef⟩
  case started =>
    rw [runEvents_replicate_nop_append, runEvents_cons_next (exec_cfg_of_lt hh s), runEvents_replicate_nop_append,
      runEvents_cons_next (exec_start _)]
    exact runEvents_beginFrame hxs h { s with hdrLen := h }
  case frame =>
    obtain ⟨t, ht, hFrame, hRem, hLen⟩ := runEvents_start_xfers bs { s with hdrLen := h }
    exact ⟨t, (runEvents_cons_next (exec_cfg_of_lt hh s)).trans ht, by rw [hFrame], hLen, hRem⟩
  case afterReset =>
    rw [runEvents_replicate_nop_append, runEvents_reset_cons]
    exact runEvents_beginFrame hxs 118 { s with hdrLen := 118 }
  case frameDef =>
    obtain ⟨t, ht, hFrame, hRem, hLen⟩ := runEvents_xfers bs (beginFrame 118 { s with hdrLen := 118 })
    exact ⟨t, (runEvents_reset_cons _ s).trans ht, by simp [hFrame], hLen, hRem⟩

end Sys2Proof.Machine
end

section
/-! SUPPORT. What one clock cycle shows on its outputs and leaves after its edge (spec/43_port_binding.md R83 to R86). -/

namespace Sys2Proof.Machine

/-! ### A cycle is its events -/

/-- A cycle whose operand fits: its outputs are recorded from the state before the edge, then its events are performed. -/
theorem step_of_cycle {s : State} {p : Pins} {rest : List Drive} (hp : s.pending = .cycle p :: rest) (hFits : p.operandFits) :
    step s = runEvents p.instrs { s with pending := rest, pins := some (outputsOf p s) } := by
  have hDecode : decode s.phase (.cycle p) = .ok p.instrs := decodeCycle_of_fits hFits
  have hRun : step s = runDrive (.cycle p) { s with pending := rest } := by rw [step, stepHost, hp]
  rw [hRun, runDrive, show State.phase { s with pending := rest } = s.phase from rfl, hDecode]
  rfl

/-- R86's order, by the strobes of the cycle. -/
theorem instrs_eq_of_strobes (p : Pins) : p.instrs =
    if p.rst then [.reset]
    else if p.fire = false ∧ p.start = false ∧ p.cfgWe = false then [.nop]
    else (if p.fire then [.xfer p.inData] else []) ++ (if p.start then [.start] else []) ++
      (if p.cfgWe then [.cfg p.cfgWdata] else []) := by
  split
  case isTrue hr => exact instrs_of_rst hr
  case isFalse hr =>
    have hr : p.rst = false := Bool.eq_false_of_not_eq_true hr
    split
    case isTrue hIdle =>
      obtain ⟨hf, hs, hc⟩ := hIdle
      exact instrs_of_idle hr hf hs hc
    case isFalse hBusy =>
      simp only [not_and_or, Bool.not_eq_false] at hBusy
      exact instrs_of_busy hr hBusy

/-- Settles O54. -/
theorem cycleIsItsEvents : Obligations.CycleIsItsEvents := by
  intro s p rest hp hFits
  rw [step_of_cycle hp hFits, instrs_eq_of_strobes]

/-! ### The state after the edge of a cycle, one stage for each event it may perform -/

/-- `XFER(in_data)` when the cycle fires (R70, R84). -/
def transferStage (p : Pins) (s : State) : State :=
  if p.fire then (if s.hRem ≠ 0 then passByte p.inData s else sendRemapped p.inData s) else s

/-- `START` when its strobe is up (R69). -/
def startStage (p : Pins) (s : State) : State := if p.start then beginFrame s.hdrLen s else s

/-- `CFG(cfg_wdata)` when its strobe is up (R68). -/
def cfgStage (p : Pins) (s : State) : State := if p.cfgWe then { s with hdrLen := p.cfgWdata } else s

/-- What a cycle leaves (R85, R86): `RESET` alone, or the three stages in order. -/
def afterEdge (p : Pins) (s : State) : State :=
  if p.rst then beginFrame Config.hdrLenReset { s with hdrLen := Config.hdrLenReset }
  else cfgStage p (startStage p (transferStage p s))

/-- One event performed only when its strobe is up. -/
theorem runEvents_strobe {strobe : Bool} {i : Instr} {s t : State} (h : strobe = true → exec i s = .next t) :
    runEvents (if strobe then [i] else []) s = .next (if strobe then t else s) := by
  cases strobe with
  | true => exact (runEvents_single i s).trans (h rfl)
  | false => rfl

/-- Outside reset a cycle is its three events in order; the `NOP` of an idle cycle is the case of none. -/
theorem runEvents_instrs_of_not_rst {p : Pins} (hr : p.rst = false) (s : State) :
    runEvents p.instrs s = runEvents ((if p.fire then [.xfer p.inData] else []) ++ (if p.start then [.start] else []) ++
      (if p.cfgWe then [.cfg p.cfgWdata] else [])) s := by
  rw [instrs_eq_of_strobes, hr, if_neg Bool.false_ne_true]
  split
  case isTrue hIdle =>
    obtain ⟨hf, hs, hc⟩ := hIdle
    rw [hf, hs, hc]
    rfl
  case isFalse => rfl

theorem runEvents_instrs {p : Pins} (hFits : p.operandFits) (s : State) :
    runEvents p.instrs s = .next (afterEdge p s) := by
  unfold afterEdge
  cases hr : p.rst with
  | true =>
    rw [instrs_of_rst hr, runEvents_single]
    exact exec_reset s
  | false =>
    have hXfer : runEvents (if p.fire then [.xfer p.inData] else []) s = .next (transferStage p s) :=
      runEvents_strobe fun _ => exec_xfer p.inData s
    have hStart : ∀ u, runEvents (if p.start then [.start] else []) u = .next (startStage p u) := fun u =>
      runEvents_strobe fun _ => exec_start u
    have hCfg : ∀ u, runEvents (if p.cfgWe then [.cfg p.cfgWdata] else []) u = .next (cfgStage p u) := fun u =>
      runEvents_strobe fun hc => exec_cfg_of_lt (hFits hr hc) u
    rw [runEvents_instrs_of_not_rst hr, List.append_assoc, runEvents_append_next hXfer, runEvents_append_next (hStart _)]
    exact hCfg _

theorem step_of_cycle_next {s : State} {p : Pins} {rest : List Drive} (hp : s.pending = .cycle p :: rest)
    (hFits : p.operandFits) :
    step s = .next (afterEdge p { s with pending := rest, pins := some (outputsOf p s) }) :=
  (step_of_cycle hp hFits).trans (runEvents_instrs hFits _)

/-! ### What each stage leaves in each field -/

@[simp] theorem transferStage_hdrLen (p : Pins) (s : State) : (transferStage p s).hdrLen = s.hdrLen := by
  unfold transferStage; split_ifs <;> rfl

@[simp] theorem transferStage_hRem (p : Pins) (s : State) :
    (transferStage p s).hRem = if p.fire ∧ s.hRem ≠ 0 then s.hRem - 1 else s.hRem := by
  unfold transferStage; split_ifs <;> simp_all

@[simp] theorem startStage_hdrLen (p : Pins) (s : State) : (startStage p s).hdrLen = s.hdrLen := by
  unfold startStage; split_ifs <;> rfl

@[simp] theorem startStage_hRem (p : Pins) (s : State) : (startStage p s).hRem = if p.start then s.hdrLen else s.hRem := by
  unfold startStage; split_ifs <;> rfl

@[simp] theorem startStage_consumed (p : Pins) (s : State) : (startStage p s).consumed = s.consumed := by
  unfold startStage; split_ifs <;> simp

@[simp] theorem startStage_delivered (p : Pins) (s : State) : (startStage p s).delivered = s.delivered := by
  unfold startStage; split_ifs <;> simp

@[simp] theorem cfgStage_hdrLen (p : Pins) (s : State) :
    (cfgStage p s).hdrLen = if p.cfgWe then p.cfgWdata else s.hdrLen := by unfold cfgStage; split_ifs <;> rfl

@[simp] theorem cfgStage_hRem (p : Pins) (s : State) : (cfgStage p s).hRem = s.hRem := by
  unfold cfgStage; split_ifs <;> rfl

@[simp] theorem cfgStage_consumed (p : Pins) (s : State) : (cfgStage p s).consumed = s.consumed := by
  unfold cfgStage; split_ifs <;> rfl

@[simp] theorem cfgStage_delivered (p : Pins) (s : State) : (cfgStage p s).delivered = s.delivered := by
  unfold cfgStage; split_ifs <;> rfl

/-! ### The queue and the output ports -/

theorem runEvents_keeps_pending {is : List Instr} {s t : State} (h : runEvents is s = .next t) :
    t.pending = s.pending ∧ t.pins = s.pins := by
  refine runEvents_keeps (P := fun u => u.pending = s.pending ∧ u.pins = s.pins) ?_ h ⟨rfl, rfl⟩
  intro i u v hExec ⟨hPending, hPins⟩
  obtain ⟨hPending', hPins'⟩ := exec_keeps_pending hExec
  exact ⟨hPending'.trans hPending, hPins'.trans hPins⟩

theorem afterEdge_keeps_pending {p : Pins} (hFits : p.operandFits) (s : State) :
    (afterEdge p s).pending = s.pending ∧ (afterEdge p s).pins = s.pins :=
  runEvents_keeps_pending (runEvents_instrs hFits s)

/-- R83: `out_data` by the old `HREM`. -/
theorem outputsOf_outData (p : Pins) (s : State) :
    (outputsOf p s).outData = if s.hRem ≠ 0 then p.inData else remapByte p.inData := by
  by_cases hz : s.hRem = 0
  · simp [outputsOf, phase_of_eq_zero hz, hz]
  · simp [outputsOf, phase_of_ne_zero hz, hz]

/-- Settles O51: no event of the cycle touches the record made before the edge. -/
theorem outputsAreCombinational : Obligations.OutputsAreCombinational := by
  intro s p rest hp hFits
  obtain ⟨_, hPins⟩ := afterEdge_keeps_pending hFits { s with pending := rest, pins := some (outputsOf p s) }
  refine ⟨_, step_of_cycle_next hp hFits, ?_⟩
  rw [hPins, ← outputsOf_outData]
  rfl

/-! ### The bytes transferred -/

theorem fire_eq_true_iff (p : Pins) : p.fire = true ↔ p.inValid = true ∧ p.outReady = true ∧ p.rst = false := by
  simp [Pins.fire, and_assoc]

theorem fire_of_rst {p : Pins} (hr : p.rst = true) : p.fire = false := by simp [Pins.fire, hr]

@[simp] theorem transferStage_consumed (p : Pins) (s : State) :
    (transferStage p s).consumed = s.consumed ++ if p.fire then [p.inData] else [] := by
  unfold transferStage; split_ifs <;> simp

/-- R84: the byte delivered is the one on `out_data`. -/
@[simp] theorem transferStage_delivered (p : Pins) (s : State) :
    (transferStage p s).delivered = s.delivered ++ if p.fire then [(outputsOf p s).outData] else [] := by
  rw [outputsOf_outData]
  unfold transferStage
  split_ifs <;> simp

theorem afterEdge_consumed (p : Pins) (s : State) :
    (afterEdge p s).consumed = s.consumed ++ if p.fire then [p.inData] else [] := by
  unfold afterEdge
  cases hr : p.rst with
  | true => simp [fire_of_rst hr, State.consumed, framesWhenClosed_inp]
  | false => simp

theorem afterEdge_delivered (p : Pins) (s : State) :
    (afterEdge p s).delivered = s.delivered ++ if p.fire then [(outputsOf p s).outData] else [] := by
  unfold afterEdge
  cases hr : p.rst with
  | true => simp [fire_of_rst hr, State.delivered, framesWhenClosed_out]
  | false => simp

/-- Settles O52. -/
theorem fireTransfersOneByte : Obligations.FireTransfersOneByte := by
  intro s p rest hp hFits
  obtain ⟨hPending, _⟩ := afterEdge_keeps_pending hFits { s with pending := rest, pins := some (outputsOf p s) }
  refine ⟨_, step_of_cycle_next hp hFits, hPending, ?_⟩
  rw [← fire_eq_true_iff, afterEdge_consumed, afterEdge_delivered, outputsOf_outData]
  constructor
  case left =>
    intro hFire
    rw [if_pos hFire, if_pos hFire]
    exact ⟨rfl, rfl⟩
  case right =>
    intro hStall
    rw [if_neg hStall, if_neg hStall, List.append_nil, List.append_nil]
    exact ⟨rfl, rfl⟩

/-! ### The registers -/

theorem afterEdge_hdrLen (p : Pins) (s : State) : (afterEdge p s).hdrLen = nextHdrLen p s := by
  unfold afterEdge nextHdrLen
  split_ifs <;> simp [*]

theorem afterEdge_hRem (p : Pins) (s : State) : (afterEdge p s).hRem = nextHRem p s := by
  unfold afterEdge nextHRem
  cases p.rst with
  | true => rfl
  | false => simp

theorem nextState_of_rst {p : Pins} (hr : p.rst = true) (s : State) : nextHdrLen p s = 118 ∧ nextHRem p s = 118 :=
  ⟨if_pos hr, if_pos hr⟩

/-- R85 with `rst` low, `fire` written out. -/
theorem nextState_of_not_rst {p : Pins} (hr : p.rst = false) (s : State) :
    nextHdrLen p s = (if p.cfgWe then p.cfgWdata else s.hdrLen) ∧
    nextHRem p s = if p.start then s.hdrLen
      else if (p.inValid && p.outReady) = true ∧ s.hRem ≠ 0 then s.hRem - 1 else s.hRem := by
  have hFire : p.fire = (p.inValid && p.outReady) := by simp [Pins.fire, hr]
  rw [nextHdrLen, nextHRem, hr, hFire, if_neg Bool.false_ne_true, if_neg Bool.false_ne_true]
  exact ⟨rfl, rfl⟩

/-- Settles O53. -/
theorem nextStateOfCycle : Obligations.NextStateOfCycle := by
  intro s p rest hp hFits
  refine ⟨_, step_of_cycle_next hp hFits, ?_⟩
  rw [afterEdge_hdrLen, afterEdge_hRem]
  exact ⟨fun hr => nextState_of_rst hr s, fun hr => nextState_of_not_rst hr s, rfl, rfl⟩

end Sys2Proof.Machine
end

section
/-! SUPPORT. `RESET`, and a `CFG` inside a frame (spec/70_reset_and_hazards.md R100, R104). -/

namespace Sys2Proof.Machine

/-! ### `RESET` -/

/-- `CFG` and the beginning of a frame with a given header length do not touch the same field. -/
theorem beginFrame_set_hdrLen (h v : Nat) (s : State) :
    { beginFrame h s with hdrLen := v } = beginFrame h { s with hdrLen := v } := rfl

theorem runEvents_reset (s : State) : runEvents [.reset] s = .next (beginFrame 118 { s with hdrLen := 118 }) :=
  runEvents_reset_cons [] s

theorem runEvents_reset_reset (s : State) : runEvents [.reset, .reset] s = runEvents [.reset] s := by
  rw [runEvents_reset_cons, runEvents_reset, runEvents_reset, beginFrame_set_hdrLen, beginFrame_beginFrame]

/-- The `CFG(118)` writes what `HDRLEN` holds, and the `START` ends a frame before its first byte. -/
theorem runEvents_reset_cfg_start (s : State) : runEvents [.reset, .cfg 118, .start] s = runEvents [.reset] s := by
  have hv : 118 < 2 ^ Config.lenW := Config.hdrLenReset_lt
  rw [runEvents_reset_cons, runEvents_cons_next (exec_cfg_of_lt hv _), beginFrame_set_hdrLen, runEvents_single, exec_start,
    beginFrame_beginFrame, runEvents_reset]
  rfl

/-- A cycle with `rst` high ignores `cfg_wdata` (R46, R100). -/
theorem operandFits_of_rst {p : Pins} (hr : p.rst = true) : p.operandFits := by
  simp [Pins.operandFits, hr]

/-- R100: what a cycle with `rst` high leaves, whatever the other inputs. -/
theorem afterEdge_of_rst {p : Pins} (hr : p.rst = true) (s : State) :
    afterEdge p s = beginFrame 118 { s with hdrLen := 118 } := if_pos hr

/-- Settles O9. -/
theorem resetLoadsDefault : Obligations.ResetLoadsDefault := by
  refine fun s => ⟨⟨_, exec_reset s, rfl, rfl, rfl, rfl⟩, runEvents_reset_reset s, runEvents_reset_cfg_start s,
    fun p rest hp hr => ?cycle⟩
  case cycle =>
    refine ⟨_, step_of_cycle_next hp (operandFits_of_rst hr), ?_⟩
    rw [afterEdge_of_rst hr, beginFrame_consumed, beginFrame_delivered]
    exact ⟨rfl, rfl, rfl, rfl, rfl⟩

/-! ### A `CFG` inside a frame -/

/-- R104: a transfer does not read `HDRLEN`, so a `CFG` before the transfers leaves the frame and `HREM` as they would be. -/
theorem runEvents_cfg_xfers {v : Nat} (hv : v < 2 ^ Config.lenW) (bs : List Byte) (s : State) :
    ∃ t t', runEvents (.cfg v :: xfers bs) s = .next t ∧ runEvents (xfers bs) s = .next t' ∧
      t.frame = t'.frame ∧ t.hRem = t'.hRem ∧ t.hdrLen = v := by
  obtain ⟨t, ht, hFrame, hRem, hLen⟩ := runEvents_xfers bs { s with hdrLen := v }
  obtain ⟨t', ht', hFrame', hRem', _⟩ := runEvents_xfers bs s
  exact ⟨t, t', (runEvents_cons_next (exec_cfg_of_lt hv s)).trans ht, ht', hFrame.trans hFrame'.symm,
    hRem.trans hRem'.symm, hLen⟩

/-- R85: a `start` and a `cfg_we` in one cycle; the `START` comes first and loads the old `HDRLEN`. -/
theorem afterEdge_of_start_cfg {p : Pins} (hr : p.rst = false) (hs : p.start = true) (hc : p.cfgWe = true) (s : State) :
    (afterEdge p s).hRem = s.hdrLen ∧ (afterEdge p s).hdrLen = p.cfgWdata := by
  obtain ⟨hLen, hRem⟩ := nextState_of_not_rst hr s
  rw [afterEdge_hRem, afterEdge_hdrLen, hLen, hRem, if_pos hs, if_pos hc]
  exact ⟨rfl, rfl⟩

/-- Settles O48. -/
theorem cfgInsideFrameWaits : Obligations.CfgInsideFrameWaits := by
  refine fun s v bs hv => ⟨?inFrame, fun p rest hp hr hs hc hOperand => ?sameCycle⟩
  case inFrame =>
    obtain ⟨t, t', ht, ht', hFrame, hRem, hLen⟩ := runEvents_cfg_xfers hv bs s
    exact ⟨t, t', ht, ht', hFrame, hRem, hLen, beginFrame t.hdrLen t, exec_start t, hLen, hLen⟩
  case sameCycle =>
    subst hOperand
    exact ⟨_, step_of_cycle_next hp fun _ _ => hv, afterEdge_of_start_cfg hr hs hc _⟩

end Sys2Proof.Machine
end

section
/-! SUPPORT. How an instruction is presented is how it is read (spec/30_encoding.md sections 1 to 4). -/

namespace Sys2Proof.Laws.RoundTrip

/-- The family of round trips, put together over the constructors. -/
theorem decode_encode : ∀ i : Instr, Statement i
  | .reset => reset
  | .cfg v => cfg v
  | .start => start
  | .xfer b => xfer b
  | .nop => nop
  | .xferPass b => xferPass b
  | .xferRemap b => xferRemap b
  | .split b => split b
  | .pack h l => pack h l
  | .remapByte b => remapByte b
  | .subst0 => subst0
  | .subst1 => subst1
  | .subst2 => subst2
  | .subst3 => subst3
  | .subst4 => subst4
  | .subst5 => subst5
  | .subst6 => subst6
  | .subst7 => subst7
  | .subst8 => subst8
  | .subst9 => subst9
  | .subst10 => subst10
  | .subst11 => subst11
  | .subst12 => subst12
  | .subst13 => subst13
  | .subst14 => subst14
  | .subst15 => subst15

/-- Settles O1. -/
theorem decodeOfEncode : Obligations.DecodeOfEncode := decode_encode

/-- Settles O2: the control words by evaluation, the words of the parts as encodings of the instructions they stand for. -/
theorem specWordsDecode : Obligations.SpecWordsDecode :=
  ⟨by decide, by decide, by decide, by decide, by decide, by decide, decode_encode (.xferPass 0x61) .header rfl rfl,
    decode_encode (.xferRemap 0x61) .payload rfl rfl, decode_encode (.split 0x61) .header rfl rfl,
    decode_encode (.pack 1 4) .header rfl rfl, decode_encode (.remapByte 0x61) .header rfl rfl,
    decode_encode .subst6 .header rfl rfl⟩

end Sys2Proof.Laws.RoundTrip
end

section
/-! SUPPORT. What every step keeps: the invariant of the block and the canonical form of the byte sequences
(spec/10_state.md R12 to R16; spec/20_memory.md R31). -/

namespace Sys2Proof.Machine

/-- Whatever the host's side of a step and every instruction keep, a step keeps. -/
theorem step_keeps {P : State → Prop} (hHost : ∀ d rest s, P s → P (showOutputs d { s with pending := rest }))
    (hExec : ∀ i s t, exec i s = .next t → P s → P t) {s t : State} (h : step s = .next t) (hs : P s) : P t := by
  rcases step_next_cases h with ⟨_, rfl⟩ | ⟨d, rest, _, _, _, hRun⟩
  · exact hs
  · exact runEvents_keeps hExec hRun (hHost d rest s hs)

/-! ### The invariant of the block -/

/-- The invariant speaks of the registers and the frames alone. -/
theorem inv_of_fields_eq {s t : State} (hs : Inv s) (hLen : t.hdrLen = s.hdrLen) (hRem : t.hRem = s.hRem)
    (hFrame : t.frame = s.frame) (hPast : t.past = s.past) : Inv t where
  hdrLen_fits := hLen ▸ hs.hdrLen_fits
  hRem_fits := hRem ▸ hs.hRem_fits
  hRem_eq := by rw [hRem, State.offset, hFrame, hs.hRem_eq, State.offset]
  frame_right := hFrame ▸ hs.frame_right
  past_right := hPast ▸ hs.past_right

theorem setHdrLen_keeps_inv {v : Nat} {s : State} (hv : v < 2 ^ Config.lenW) (hs : Inv s) : Inv { s with hdrLen := v } where
  hdrLen_fits := hv
  hRem_fits := hs.hRem_fits
  hRem_eq := hs.hRem_eq
  frame_right := hs.frame_right
  past_right := hs.past_right

/-- An empty frame is right whatever its header length. -/
theorem frameRight_empty {h : Nat} (hh : h < 2 ^ Config.lenW) : FrameRight { hdr := h, inp := [], out := [] } where
  hdr_fits := hh
  out_eq := (remap_nil h).symm

/-- A right frame that took no byte delivered none. -/
theorem frameRight_out_eq_nil {f : Frame} (hf : FrameRight f) (hInp : f.inp = []) : f.out = [] := by
  rw [hf.out_eq, hInp, remap_nil]

theorem beginFrame_keeps_inv {h : Nat} {s : State} (hh : h < 2 ^ Config.lenW) (hs : Inv s) : Inv (beginFrame h s) where
  hdrLen_fits := hs.hdrLen_fits
  hRem_fits := hh
  hRem_eq := rfl
  frame_right := frameRight_empty hh
  past_right := by
    intro f hf
    rcases mem_framesWhenClosed hf with hPast | ⟨rfl, hMoved⟩
    · exact hs.past_right f hPast
    · exact ⟨hs.frame_right, fun hInp => hMoved ⟨hInp, frameRight_out_eq_nil hs.frame_right hInp⟩⟩

/-- R71: with `HREM` not 0 the offset stands in the header, where `remap` copies. -/
theorem passByte_keeps_inv {b : Byte} {s : State} (hs : Inv s) (hHeader : s.hRem ≠ 0) : Inv (passByte b s) where
  hdrLen_fits := hs.hdrLen_fits
  hRem_fits := (Nat.sub_le _ _).trans_lt hs.hRem_fits
  hRem_eq := by rw [passByte_hRem, passByte_frame, passByte_offset, hs.hRem_eq, Nat.sub_sub]
  frame_right := by
    have hIn : s.frame.inp.length < s.frame.hdr := Nat.lt_of_sub_ne_zero (hs.hRem_eq ▸ hHeader)
    exact ⟨hs.frame_right.hdr_fits, by rw [passByte_frame, remap_snoc_header b hIn, hs.frame_right.out_eq]⟩
  past_right := hs.past_right

/-- R72: with `HREM = 0` the header is over, and `remap` translates. -/
theorem sendRemapped_keeps_inv {b : Byte} {s : State} (hs : Inv s) (hPayload : s.hRem = 0) : Inv (sendRemapped b s) where
  hdrLen_fits := hs.hdrLen_fits
  hRem_fits := hs.hRem_fits
  hRem_eq := by
    have hRem := hs.hRem_eq
    simp only [sendRemapped_hRem, sendRemapped_frame, sendRemapped_offset]
    omega
  frame_right := by
    have hOver : s.frame.hdr ≤ s.frame.inp.length := Nat.sub_eq_zero_iff_le.mp (hs.hRem_eq ▸ hPayload)
    exact ⟨hs.frame_right.hdr_fits, by rw [sendRemapped_frame, remap_snoc_payload b hOver, hs.frame_right.out_eq]⟩
  past_right := hs.past_right

theorem exec_keeps_inv {i : Instr} {s t : State} (h : exec i s = .next t) (hs : Inv s) : Inv t := by
  rcases exec_next_cases h with
    rfl | ⟨_, rfl⟩ | ⟨_, _, hv, rfl⟩ | ⟨_, rfl⟩ | ⟨_, rfl⟩ | ⟨_, _, hHeader, rfl⟩ | ⟨_, _, hPayload, rfl⟩
  · exact hs
  · exact inv_of_fields_eq hs rfl rfl rfl rfl
  · exact setHdrLen_keeps_inv hv hs
  · exact beginFrame_keeps_inv Config.hdrLenReset_lt (setHdrLen_keeps_inv Config.hdrLenReset_lt hs)
  · exact beginFrame_keeps_inv hs.hdrLen_fits hs
  · exact passByte_keeps_inv hs hHeader
  · exact sendRemapped_keeps_inv hs hPayload

/-- Settles O37. -/
theorem stepKeepsInvariant : Obligations.StepKeepsInvariant := fun _ _ hs h =>
  step_keeps (P := Inv) (fun _ _ _ hs => inv_of_fields_eq hs (by simp) (by simp) (by simp) (by simp))
    (fun _ _ _ => exec_keeps_inv) h hs

/-- At the start of the first frame the invariant is that the registers keep their width. -/
theorem inv_of_first_frame {s : State} (hLen : s.hdrLen < 2 ^ Config.lenW) (hRem : s.hRem < 2 ^ Config.lenW)
    (hFrame : s.frame = { hdr := s.hRem, inp := [], out := [] }) (hPast : s.past = []) : Inv s where
  hdrLen_fits := hLen
  hRem_fits := hRem
  hRem_eq := by rw [State.offset, hFrame]; rfl
  frame_right := hFrame ▸ frameRight_empty hRem
  past_right := by simp [hPast]

/-- Settles O38. -/
theorem resetMeetsInvariant : Obligations.ResetMeetsInvariant :=
  inv_of_first_frame Config.hdrLenReset_lt Config.hdrLenReset_lt rfl rfl

/-- Settles O39: the free values are cut to the width of the registers. -/
theorem powerUpMeetsInvariant : Obligations.PowerUpMeetsInvariant :=
  inv_of_first_frame (Nat.mod_lt _ (Nat.two_pow_pos _)) (Nat.mod_lt _ (Nat.two_pow_pos _)) rfl rfl

/-! ### The canonical form of the byte sequences -/

theorem memory_wf_of_fields_eq {s t : State} (hs : Memory.wf s = true) (hFrame : t.frame = s.frame) (hPast : t.past = s.past) :
    Memory.wf t = true := by rwa [Memory.wf, hFrame, hPast]

theorem exec_keeps_memory_wf {i : Instr} {s t : State} (h : exec i s = .next t) (hs : Memory.wf s = true) :
    Memory.wf t = true := by
  rcases exec_next_cases h with
    rfl | ⟨_, rfl⟩ | ⟨_, _, _, rfl⟩ | ⟨_, rfl⟩ | ⟨_, rfl⟩ | ⟨_, _, _, rfl⟩ | ⟨_, _, _, rfl⟩
  · exact hs
  · exact hs
  · exact hs
  · exact beginFrame_keeps_wf hs
  · exact beginFrame_keeps_wf hs
  · exact passByte_keeps_wf hs
  · exact sendRemapped_keeps_wf hs

/-- Settles O40. -/
theorem stepKeepsMemoryForm : Obligations.StepKeepsMemoryForm :=
  ⟨reset_memory_wf, fun _ _ hs h => step_keeps (P := fun u => Memory.wf u = true)
    (fun _ _ _ hs => memory_wf_of_fields_eq hs (by simp) (by simp)) (fun _ _ _ => exec_keeps_memory_wf) h hs⟩

end Sys2Proof.Machine
end

section
/-! SUPPORT. What each instruction returns, stores and leaves alone (spec/10_state.md R12, R13; spec/20_memory.md R24). -/

namespace Sys2Proof.Machine

/-! ### The pure functions and the rows of the ROM -/

/-- The rows of the ROM (30_encoding.md R44). -/
def lookupRows : List Instr := romRows.map Prod.snd

theorem exec_lookupRow {i : Instr} (hi : i ∈ lookupRows) (s : State) :
    ∃ x, exec i s = .next (returnValue (.index x) s) := by
  simp only [lookupRows, romRows, List.cons_append, List.nil_append, List.map_cons, List.map_nil, List.mem_cons,
    List.not_mem_nil, or_false] at hi
  rcases hi with rfl | rfl | rfl | rfl | rfl | rfl | rfl | rfl | rfl | rfl | rfl | rfl | rfl | rfl | rfl | rfl <;>
    exact ⟨_, rfl⟩

theorem returnValue_reads (r : Returned) (s : State) (a : Nat) :
    outRead (returnValue r s) a = outRead s a ∧ memRead (returnValue r s) a = memRead s a := ⟨rfl, rfl⟩

/-- Settles O30: each of them is `returnValue`, of a value that is not `nothing`. -/
theorem pureFunctionsLeaveState : Obligations.PureFunctionsLeaveState := by
  intro i s hi
  suffices hReturns : ∃ r, exec i s = .next (returnValue r s) ∧ r ≠ .nothing by
    obtain ⟨r, hExec, hr⟩ := hReturns
    exact ⟨returnValue r s, hExec, rfl, hr, returnValue_reads r s⟩
  rcases hi with ⟨b, rfl⟩ | ⟨h, l, rfl⟩ | ⟨b, rfl⟩ | hRow
  · exact ⟨_, exec_split b s, nofun⟩
  · exact ⟨_, exec_pack h l s, nofun⟩
  · exact ⟨_, exec_remapByte b s, nofun⟩
  · obtain ⟨x, hx⟩ := exec_lookupRow (i := i) hRow s
    exact ⟨_, hx, nofun⟩

/-! ### `CFG`, `NOP` and the frame starts -/

/-- Settles O31. -/
theorem cfgAndNopLeaveBytes : Obligations.CfgAndNopLeaveBytes := by
  rintro i s t (rfl | ⟨v, rfl⟩) h
  · rw [exec_nop] at h
    cases h
    exact ⟨rfl, fun _ => rfl, fun _ => ⟨rfl, rfl⟩⟩
  · rw [exec_cfg] at h
    split at h <;> cases h
    exact ⟨rfl, nofun, fun _ => ⟨rfl, rfl⟩⟩

/-- What a frame start leaves: the streams, and the ended frame if a byte moved in it. -/
theorem beginFrame_loses_no_byte (h : Nat) (s : State) :
    (beginFrame h s).consumed = s.consumed ∧ (beginFrame h s).delivered = s.delivered ∧
    (s.frame.inp = [] ∧ s.frame.out = [] → (beginFrame h s).past = s.past) ∧
    (¬ (s.frame.inp = [] ∧ s.frame.out = []) → (beginFrame h s).past = s.past ++ [s.frame]) :=
  ⟨beginFrame_consumed h s, beginFrame_delivered h s, fun hEmpty => if_pos hEmpty, fun hMoved => if_neg hMoved⟩

/-- Settles O32. -/
theorem frameStartsLoseNoByte : Obligations.FrameStartsLoseNoByte := by
  rintro i s t (rfl | rfl) h
  · rw [exec_start] at h
    cases h
    obtain ⟨hIn, hOut, hEmpty, hMoved⟩ := beginFrame_loses_no_byte s.hdrLen s
    exact ⟨hIn, hOut, rfl, fun _ => rfl, rfl, rfl, rfl, hEmpty, hMoved⟩
  · rw [exec_reset] at h
    cases h
    obtain ⟨hIn, hOut, hEmpty, hMoved⟩ :=
      beginFrame_loses_no_byte Config.hdrLenReset { s with hdrLen := Config.hdrLenReset }
    exact ⟨hIn, hOut, rfl, nofun, rfl, rfl, rfl, hEmpty, hMoved⟩

/-! ### The transfers -/

/-- R70: a transfer appends one byte to each sequence of the frame. -/
theorem transfer_frame {i : Instr} {b : Byte} {s t : State} (hi : i = .xfer b ∨ i = .xferPass b ∨ i = .xferRemap b)
    (h : exec i s = .next t) : t.frame = { s.frame with
      inp := s.frame.inp ++ [b]
      out := s.frame.out ++ [if s.hRem ≠ 0 then b else remapByte b] } := by
  rcases transfer_next_cases hi h with ⟨hHeader, rfl⟩ | ⟨hPayload, rfl⟩
  · rw [passByte_frame, if_pos hHeader]
  · rw [sendRemapped_frame, if_neg (not_not.mpr hPayload)]

theorem transfer_keeps_hdrLen_past {i : Instr} {b : Byte} {s t : State}
    (hi : i = .xfer b ∨ i = .xferPass b ∨ i = .xferRemap b) (h : exec i s = .next t) :
    t.hdrLen = s.hdrLen ∧ t.past = s.past := by
  rcases transfer_next_cases hi h with ⟨_, rfl⟩ | ⟨_, rfl⟩
  · exact ⟨rfl, rfl⟩
  · exact ⟨rfl, rfl⟩

theorem getElem?_concat_of_ne {α : Type} {xs : List α} {x : α} {a : Nat} (ha : a ≠ xs.length) :
    (xs ++ [x])[a]? = xs[a]? := by
  rcases Nat.lt_or_gt_of_ne ha with hlt | hgt
  · exact List.getElem?_append_left hlt
  · rw [List.getElem?_eq_none hgt.le, List.getElem?_eq_none (by simpa using hgt)]

/-- Settles O33: the two sequences are appended to, so the byte stands where each ended. -/
theorem transferStoresOneByte : Obligations.TransferStoresOneByte := by
  intro i b s t hi h
  obtain ⟨hLen, hPast⟩ := transfer_keeps_hdrLen_past hi h
  obtain ⟨hPending, hPins⟩ := exec_keeps_pending h
  have hFrame := transfer_frame hi h
  simp only [outRead, memRead, State.offset, hFrame]
  exact ⟨hLen, trivial, hPast, hPending, hPins, List.getElem?_concat_length, List.getElem?_concat_length,
    fun _ => getElem?_concat_of_ne, fun _ => getElem?_concat_of_ne⟩

/-- Settles O15. -/
theorem formsRefuseOtherPhase : Obligations.FormsRefuseOtherPhase := fun s b =>
  ⟨fun hPayload => by rw [exec_xferPass, if_neg (not_not.mpr hPayload)],
    fun hHeader => by rw [exec_xferRemap, if_neg hHeader]⟩

/-! ### The writers of the registers -/

/-- Settles O34. -/
theorem onlyCfgAndResetWriteHdrLen : Obligations.OnlyCfgAndResetWriteHdrLen := by
  intro i s t h hne
  rcases exec_next_cases h with
    rfl | ⟨_, rfl⟩ | ⟨v, hCfg, _, rfl⟩ | ⟨hReset, rfl⟩ | ⟨_, rfl⟩ | ⟨_, _, _, rfl⟩ | ⟨_, _, _, rfl⟩
  · exact absurd rfl hne
  · exact absurd rfl hne
  · exact .inl ⟨v, hCfg, rfl⟩
  · exact .inr ⟨hReset, rfl⟩
  · exact absurd rfl hne
  · exact absurd rfl hne
  · exact absurd rfl hne

/-- Settles O35. -/
theorem writersOfHRem : Obligations.WritersOfHRem := by
  intro i s t h hne
  rcases exec_next_cases h with
    rfl | ⟨_, rfl⟩ | ⟨_, _, _, rfl⟩ | ⟨hReset, rfl⟩ | ⟨hStart, rfl⟩ | ⟨b, hi, hHeader, rfl⟩ | ⟨_, _, _, rfl⟩
  · exact absurd rfl hne
  · exact absurd rfl hne
  · exact absurd rfl hne
  · exact .inr (.inl ⟨hReset, rfl⟩)
  · exact .inl ⟨hStart, rfl⟩
  · exact .inr (.inr ⟨b, hi, hHeader, Nat.succ_pred_eq_of_ne_zero hHeader⟩)
  · exact absurd rfl hne

end Sys2Proof.Machine
end

section
/-! SUPPORT. Frames of any length, and the degenerate ones (spec/42_stream_operations.md R77; spec/70_reset_and_hazards.md
section 3). -/

namespace Sys2Proof.Machine

/-- R77: a frame that ends in its header, or just after it, leaves unchanged. -/
theorem remap_of_length_le {s : List Byte} {h : Nat} (hle : s.length ≤ h) : remap s h = s := by
  rw [remap, List.take_of_length_le hle, List.drop_eq_nil_of_le hle, List.map_nil, List.append_nil]

/-- Settles O46: each clause reads `remap` and `h -. n` at its header length. -/
theorem degenerateFrames : Obligations.DegenerateFrames := by
  intro s h bs hh
  obtain ⟨-, hFrame, -, -⟩ := frameComputesRemap
  obtain ⟨t, ht, hOut, -, hRem⟩ := hFrame s h bs hh
  refine ⟨t, ht, ?noHeader, ?noPayload, ?shortFrame, ?emptyFrame⟩
  case noHeader =>
    rintro rfl
    exact ⟨hOut.trans (remap_zero bs), hRem.trans (Nat.zero_sub _)⟩
  case noPayload =>
    rintro rfl
    exact ⟨hOut.trans (remap_of_length_le le_rfl), hRem.trans (Nat.sub_self _)⟩
  case shortFrame =>
    intro hShort
    exact ⟨hOut.trans (remap_of_length_le hShort.le), hRem, hRem ▸ Nat.sub_ne_zero_of_lt hShort⟩
  case emptyFrame =>
    rintro rfl
    exact ⟨hOut.trans (remap_nil h), hRem⟩

/-- Settles O49. -/
theorem anyLengthCompletes : Obligations.AnyLengthCompletes := by
  intro s bs
  obtain ⟨t, ht, hFrame, hRem, hLen⟩ := runEvents_xfers bs s
  exact ⟨t, ht, by rw [hFrame], by rw [hFrame], hRem, hLen⟩

/-- Settles O50. -/
theorem cfgStartDefineRegisters : Obligations.CfgStartDefineRegisters := by
  intro v hv
  rw [runEvents_cons_next (exec_cfg_of_lt hv _), runEvents_single, exec_start]
  exact ⟨_, rfl, rfl, rfl⟩

end Sys2Proof.Machine
end

section
/-! SUPPORT. What a step runs, when it completes, and a trace presented one event a step (spec/00_scope.md section 4;
spec/30_encoding.md section 5; spec/43_port_binding.md section 3). -/

namespace Sys2Proof.Machine

/-! ### The step and its presentation -/

theorem step_of_drive {s : State} {d : Drive} {rest : List Drive} (hp : s.pending = d :: rest) :
    step s = runDrive d { s with pending := rest } := by rw [step, stepHost, hp]

theorem runDrive_of_decoded {d : Drive} {s : State} {is : List Instr} (h : decode s.phase d = .ok is) :
    runDrive d s = runEvents is (showOutputs d s) := by rw [runDrive, h]

theorem runDrive_of_rejected {d : Drive} {s : State} {e : DecodeError} (h : decode s.phase d = .error e) :
    runDrive d s = .refused (refusalOf e) := by rw [runDrive, h]

theorem step_of_decoded {s : State} {d : Drive} {rest : List Drive} {is : List Instr} (hp : s.pending = d :: rest)
    (h : decode s.phase d = .ok is) : step s = runEvents is (showOutputs d { s with pending := rest }) :=
  (step_of_drive hp).trans (runDrive_of_decoded h)

theorem step_of_decoded_one {s : State} {d : Drive} {rest : List Drive} {i : Instr} (hp : s.pending = d :: rest)
    (h : decode s.phase d = .ok [i]) : step s = exec i (showOutputs d { s with pending := rest }) :=
  (step_of_decoded hp h).trans (runEvents_single _ _)

/-- Settles O5. -/
theorem stepRunsDecoded : Obligations.StepRunsDecoded := fun _ _ _ hp =>
  ⟨fun _ h => step_of_decoded hp h, fun _ h => step_of_decoded_one hp h⟩

theorem withFetchWord_of_drive {nbits w : Nat} {d : Drive} (h : driveOfTableWord nbits w = some d) (s : State) :
    s.withFetchWord nbits w = { s with pending := d :: s.pending } := by
  rw [State.withFetchWord, presentTableWord, h]

/-- Settles O6. -/
theorem placedWordRuns : Obligations.PlacedWordRuns := by
  intro s nbits w d i hDrive hDecode
  rw [withFetchWord_of_drive hDrive]
  exact step_of_decoded_one (rest := s.pending) rfl hDecode

/-- A cycle without `CFG` ignores `cfg_wdata` (43_port_binding.md R81). -/
theorem operandFits_of_no_cfg {p : Pins} (hc : p.cfgWe = false) : p.operandFits := by
  simp [Pins.operandFits, hc]

/-- Settles O55: without a strobe and without `fire` the cycle performs `NOP`. -/
theorem waitingCycleChangesNothing : Obligations.WaitingCycleChangesNothing := by
  intro s p rest hp hr hc hs hStall
  have hFire : p.fire = false := by
    rcases hStall with hv | ho
    · simp [Pins.fire, hv]
    · simp [Pins.fire, ho]
  rw [step_of_cycle hp (operandFits_of_no_cfg hc), instrs_of_idle hr hFire hs hc, runEvents_single, exec_nop]

/-! ### Whatever is presented completes -/

/-- R46, R47: no control word selects nothing. -/
theorem instrs_ne_nil (p : Pins) : p.instrs ≠ [] := by
  rw [instrs_eq_of_strobes]
  split
  case isTrue => exact List.cons_ne_nil _ _
  case isFalse =>
    split
    case isTrue => exact List.cons_ne_nil _ _
    case isFalse hBusy => simpa using hBusy

/-- R44: an index selects one row of the ROM. -/
theorem decodeIndex_eq_lookupRow (i : Index) : ∃ r ∈ lookupRows, decodeIndex i = [r] := by
  obtain ⟨r, hr⟩ := List.length_eq_one_iff.mp (decodeIndex_one i)
  have hSub : List.Sublist (decodeIndex i) lookupRows := List.filter_sublist.map Prod.snd
  exact ⟨r, hSub.subset (by simp [hr]), hr⟩

/-- R45: a data byte is the form of `XFER` its phase selects, so the form completes. -/
theorem dataByte_completes (b : Byte) (s : State) :
    ∃ i t, decode s.phase (.dataByte b) = .ok [i] ∧ exec i s = .next t := by
  by_cases hz : s.hRem = 0
  · rw [phase_of_eq_zero hz]
    exact ⟨.xferRemap b, _, rfl, by rw [exec_xferRemap, if_pos hz]⟩
  · rw [phase_of_ne_zero hz]
    exact ⟨.xferPass b, _, rfl, by rw [exec_xferPass, if_pos hz]⟩

/-- R47: only a cycle whose `CFG` operand does not fit is not performed. -/
theorem drive_completes (d : Drive) (s : State) (hFits : ∀ p, d = .cycle p → p.operandFits) :
    ∃ is, decode s.phase d = .ok is ∧ is ≠ [] ∧ ∃ t, runEvents is s = .next t := by
  suffices hOne : (∃ p, d = .cycle p) ∨ ∃ i t, decode s.phase d = .ok [i] ∧ exec i s = .next t by
    rcases hOne with ⟨p, rfl⟩ | ⟨i, t, hDecode, hExec⟩
    · exact ⟨p.instrs, decodeCycle_of_fits (hFits p rfl), instrs_ne_nil p, _, runEvents_instrs (hFits p rfl) s⟩
    · exact ⟨[i], hDecode, List.cons_ne_nil _ _, t, (runEvents_single i s).trans hExec⟩
  cases d with
  | cycle p => exact .inl ⟨p, rfl⟩
  | dataByte b => exact .inr (dataByte_completes b s)
  | splitIn b => exact .inr ⟨_, _, rfl, exec_split b s⟩
  | repackIn w => exact .inr ⟨_, _, rfl, exec_pack _ _ s⟩
  | lanesIn b => exact .inr ⟨_, _, rfl, exec_remapByte b s⟩
  | romIn i =>
    obtain ⟨r, hRow, hDecode⟩ := decodeIndex_eq_lookupRow i
    obtain ⟨x, hExec⟩ := exec_lookupRow hRow s
    exact .inr ⟨r, _, congrArg Except.ok hDecode, hExec⟩

/-- Settles O4. -/
theorem everyWordIsLegal : Obligations.EveryWordIsLegal := fun s d hFits =>
  drive_completes d s fun p hd _ _ => hFits p hd

/-! ### What a step refuses -/

/-- A step completes or refuses a cycle whose `CFG` operand does not fit (60_exceptions.md R90). -/
theorem step_completes_or_refuses (s : State) :
    ((∃ t, step s = .next t) ∧ ∀ p rest, s.pending = .cycle p :: rest → p.operandFits) ∨
    ∃ p rest, s.pending = .cycle p :: rest ∧ ¬ p.operandFits ∧ step s = .refused (.headerLengthTooLarge p.cfgWdata) := by
  cases hp : s.pending with
  | nil => exact .inl ⟨⟨s, step_of_idle hp⟩, nofun⟩
  | cons d rest =>
    by_cases hFits : ∀ p, d = .cycle p → p.operandFits
    · obtain ⟨is, hDecode, -, t, ht⟩ := drive_completes d (showOutputs d { s with pending := rest }) hFits
      have hPhase : (showOutputs d { s with pending := rest }).phase = s.phase := by simp [State.phase]
      rw [hPhase] at hDecode
      exact .inl ⟨⟨t, (step_of_decoded hp hDecode).trans ht⟩, fun p _ hd => hFits p (List.cons.inj hd).1⟩
    · obtain ⟨p, hCycle⟩ := not_forall.mp hFits
      obtain ⟨rfl, hLong⟩ := Classical.not_imp.mp hCycle
      exact .inr ⟨p, rest, rfl, hLong, (step_of_drive hp).trans (runDrive_of_rejected (decodeCycle_of_not_fits hLong))⟩

theorem not_operandFits_iff (p : Pins) :
    ¬ p.operandFits ↔ p.rst = false ∧ p.cfgWe = true ∧ 2 ^ Config.lenW ≤ p.cfgWdata := by
  simp [Pins.operandFits]

/-- Settles O42. -/
theorem onlyTooLongHeaderIsRefused : Obligations.OnlyTooLongHeaderIsRefused := by
  intro s
  rcases step_completes_or_refuses s with ⟨⟨t, ht⟩, hFits⟩ | ⟨p, rest, hp, hLong, hStep⟩
  · refine ⟨by simp [ht], fun r => ⟨by simp [ht], ?_⟩⟩
    rintro ⟨p, rest, hp, hr, hc, hWide, -⟩
    exact absurd (hFits p rest hp) ((not_operandFits_iff p).mpr ⟨hr, hc, hWide⟩)
  · refine ⟨by simp [hStep], fun r => ⟨fun h => ?_, ?_⟩⟩
    · obtain ⟨hr, hc, hWide⟩ := (not_operandFits_iff p).mp hLong
      rw [hStep] at h
      cases h
      exact ⟨p, rest, hp, hr, hc, hWide, rfl⟩
    · rintro ⟨p', rest', hp', -, -, -, rfl⟩
      cases hp.symm.trans hp'
      exact hStep

/-! ### A trace presented one event a step -/

/-- The state with the host's side of the ports replaced. -/
def withHost (queue : List Drive) (shown : Option OutPins) (s : State) : State :=
  { s with pending := queue, pins := shown }

/-- No instruction reads the host's side. -/
theorem exec_withHost {i : Instr} {s t : State} (h : exec i s = .next t) (queue : List Drive) (shown : Option OutPins) :
    exec i (withHost queue shown s) = .next (withHost queue shown t) := by
  cases i with
  | cfg v =>
    rw [exec_cfg] at h ⊢
    split at h <;> cases h
    exact if_pos ‹_›
  | xfer b =>
    rcases transfer_next_cases (.inl rfl) h with ⟨hHeader, rfl⟩ | ⟨hPayload, rfl⟩
    · rw [exec_xfer, if_pos (show (withHost queue shown s).hRem ≠ 0 from hHeader)]
      rfl
    · rw [exec_xfer, if_neg (show ¬ (withHost queue shown s).hRem ≠ 0 from not_not.mpr hPayload)]
      rfl
  | xferPass b =>
    rw [exec_xferPass] at h ⊢
    split at h <;> cases h
    exact if_pos ‹_›
  | xferRemap b =>
    rw [exec_xferRemap] at h ⊢
    split at h <;> cases h
    exact if_pos ‹_›
  | _ => cases h; rfl

theorem showOutputs_eq_withHost (d : Drive) (s : State) :
    showOutputs d s = withHost s.pending (showOutputs d s).pins s := by cases d <;> rfl

/-- The five events, the operand of a `CFG` fitting the port (30_encoding.md R46, R48). -/
abbrev IsEvent (i : Instr) : Prop := i = .reset ∨ i = .start ∨ mayStandInFrame i = true

/-- R45: only the two forms of `XFER` depend on the phase, and the operand of a `CFG` in a frame fits. -/
theorem event_presentable {i : Instr} (hi : IsEvent i) (ph : Phase) :
    i.wellFormed = true ∧ i.selectableIn ph = true := by
  rcases hi with rfl | rfl | hInFrame
  · cases ph <;> exact ⟨rfl, rfl⟩
  · cases ph <;> exact ⟨rfl, rfl⟩
  · cases i with
    | xfer b => cases ph <;> exact ⟨rfl, rfl⟩
    | nop => cases ph <;> exact ⟨rfl, rfl⟩
    | cfg v => cases ph <;> exact ⟨hInFrame, rfl⟩
    | _ => cases hInFrame

theorem step_presented {i : Instr} {s t : State} (hi : IsEvent i)
    (h : exec i s = .next t) (rest : List Drive) (shown : Option OutPins) :
    ∃ shown', step (withHost (encode i :: rest) shown s) = .next (withHost rest shown' t) := by
  obtain ⟨hWf, hSelectable⟩ := event_presentable hi s.phase
  have hDecode : decode s.phase (encode i) = .ok [i] := Laws.RoundTrip.decode_encode i s.phase hWf hSelectable
  have hStep := step_of_decoded_one (s := withHost (encode i :: rest) shown s) rfl hDecode
  rw [showOutputs_eq_withHost] at hStep
  exact ⟨_, hStep.trans (exec_withHost h rest _)⟩

theorem run_succ_of_step {M : Host.Core} {k : Nat} {s t : M.State} (h : M.step s = .next t) :
    M.run (k + 1) s = M.run k t := by rw [Host.Core.run, h]

theorem core_run_succ_of_step {k : Nat} {s t : State} (h : step s = .next t) : core.run (k + 1) s = core.run k t :=
  run_succ_of_step (M := core) (s := s) (t := t) h

theorem run_presented {is : List Instr} (his : ∀ i ∈ is, IsEvent i)
    (rest : List Drive) {s t : State} (shown : Option OutPins) (h : runEvents is s = .next t) :
    ∃ shown', core.run is.length (withHost (is.map encode ++ rest) shown s) = .next (withHost rest shown' t) := by
  induction is generalizing s shown with
  | nil =>
    cases h
    exact ⟨shown, rfl⟩
  | cons i is ih =>
    obtain ⟨hHead, hTail⟩ := List.forall_mem_cons.mp his
    obtain ⟨u, hu, ht⟩ := runEvents_cons_cases h
    obtain ⟨shown₁, hStep⟩ := step_presented hHead hu (is.map encode ++ rest) shown
    obtain ⟨shown₂, hRun⟩ := ih hTail shown₁ ht
    exact ⟨shown₂, (core_run_succ_of_step hStep).trans hRun⟩

/-- Settles O7. -/
theorem presentedTraceIsPerformed : Obligations.PresentedTraceIsPerformed := fun _ rest s _ his h =>
  run_presented his rest s.pins h

/-! ### `start` held over two cycles -/

/-- R85: a cycle with `start` and no `CFG` leaves `HDRLEN` in both registers. -/
theorem afterEdge_of_start {p : Pins} (hr : p.rst = false) (hs : p.start = true) (hc : p.cfgWe = false) (s : State) :
    (afterEdge p s).hRem = s.hdrLen ∧ (afterEdge p s).hdrLen = s.hdrLen := by
  obtain ⟨hLen, hRem⟩ := nextState_of_not_rst hr s
  rw [afterEdge_hRem, afterEdge_hdrLen, hLen, hRem, if_pos hs, hc, if_neg Bool.false_ne_true]
  exact ⟨rfl, rfl⟩

/-- Settles O56: the first cycle leaves `HDRLEN` in `HREM`, by which the second delivers its byte before it reloads. -/
theorem heldStartReloads : Obligations.HeldStartReloads := by
  intro s p q rest hp hpr hps hpc hqr hqs hqc hFire
  have hFits := operandFits_of_no_cfg hpc
  have hStep := step_of_cycle_next hp hFits
  obtain ⟨hPending, -⟩ :=
    afterEdge_keeps_pending hFits { s with pending := .cycle q :: rest, pins := some (outputsOf p s) }
  obtain ⟨hRem, -⟩ := afterEdge_of_start hpr hps hpc { s with pending := .cycle q :: rest, pins := some (outputsOf p s) }
  refine ⟨_, _, hStep, hRem, step_of_cycle_next hPending (operandFits_of_no_cfg hqc),
    (afterEdge_of_start hqr hqs hqc _).1, ?_⟩
  rw [afterEdge_delivered, if_pos hFire, outputsOf_outData]
  simp only [hRem]
  rfl

end Sys2Proof.Machine
end
